-- ==== Sys2Proof/Word.lean ====
section
/-! DEFINITION. The word types of spec/00_scope.md rules R7 and R9: memory cells of 8 bits, and registers, the pc,
addresses and instruction words of 32 bits. Signedness is a view each operation names: `BitVec.toInt` is the spec's
s(v), `BitVec.toNat` its u(v). -/

namespace Sys2Proof

/-- One memory cell (R7: "memory cell 8 bits"). -/
abbrev Byte := BitVec 8

/-- A register, the pc, an address or an instruction word (R7: XLEN, pc, address and instruction width 32 bits). -/
abbrev Word := BitVec 32

end Sys2Proof
end

