-- ==== Sys2Proof/Config.lean ====
section
/-! DEFINITION. The implementation parameters of spec/00_scope.md rule R8. The parameters a launch supplies are the
fields of `BootConfig`; the named values below are those that `Machine.State.reset` uses. No parameter is a free
value: the spec leaves no result of any instruction open. -/

namespace Sys2Proof

/-- SYSTEM_SUBDECODE of R8 (D14): what a word of opcode 0x73 whose funct3 is not 000 does. -/
inductive SystemSubdecode where
  /-- the decided value `ecall_all`: every such word takes the environment-call path (R78, R207). -/
  | ecallAll
  /-- the alternative `csr_noop`: such a word is a no-op that advances the pc by 4. -/
  | csrNoop
  deriving DecidableEq, Repr

/-- IMAGE_WIRE_ORDER of R8 (R51, D23): the byte order of each word in an image file, a matter of the host's alone. -/
inductive WireOrder where
  | littleEndian
  | bigEndian
  deriving DecidableEq, Repr

/-- What the host's configuration surface supplies at a launch (R8, R241 step 1): the base load address, the initial
stack pointer and the trace toggle, which has no architectural effect (R31, D30). -/
structure BootConfig where
  baseAddr : Word
  spInit   : Word
  trace    : Bool
  deriving DecidableEq, Repr

/-- BASE_ADDR at `State.reset`. DESIGN CHOICE (log entry 1, unsafe): R8 leaves it open; 0 is the base of the source's
own end-to-end program (spec/95_test_vectors.md W7). `Machine.boot` takes any value. -/
def Config.baseAddr : Word := 0x00000000#32

/-- SP_INIT at `State.reset`. DESIGN CHOICE (log entry 2, unsafe): R8 leaves it open; 0x8000 is the value of all eight
programs of spec/95_test_vectors.md section 3. `Machine.boot` takes any value. -/
def Config.spInit : Word := 0x00008000#32

/-- REG_INIT(i), i in {1, 3..31}. DESIGN CHOICE, the spec's own D1 (log entry 3, unsafe): 0 (R8, R33). -/
def Config.regInit : Word := 0x00000000#32

/-- SYSTEM_SUBDECODE as the spec decides it (R8, R78, R207; D14; log entry 8, unsafe). -/
def Config.systemSubdecode : SystemSubdecode := .ecallAll

end Sys2Proof
end

