-- ==== Sys2Proof/Syntax.lean ====
section
/-! DEFINITION. The instructions of spec/opcode_table.json: one constructor per row (spec/00_scope.md rule R4: 45
instructions, FENCE and ECALL). Immediates are kept as the fields of spec/30_encoding.md rules R63 to R68, before
extension; branch and jump offsets are the 13- and 21-bit byte offsets of R65 and R67. Operand order is that of
the assembler syntax of R83, but that a store lists rs1 before rs2. -/

namespace Sys2Proof

/-- A register number, 0 to 31 (R20, R81). -/
abbrev RegIdx := Fin 32

inductive Instr where
  -- 41_upper_immediate.md: `imm` is w[31:12]
  | lui    (rd : RegIdx) (imm : BitVec 20)
  | auipc  (rd : RegIdx) (imm : BitVec 20)
  -- 42_control_transfer.md
  | jal    (rd : RegIdx) (offset : BitVec 21)
  | jalr   (rd rs1 : RegIdx) (imm : BitVec 12)
  | beq    (rs1 rs2 : RegIdx) (offset : BitVec 13)
  | bne    (rs1 rs2 : RegIdx) (offset : BitVec 13)
  | blt    (rs1 rs2 : RegIdx) (offset : BitVec 13)
  | bge    (rs1 rs2 : RegIdx) (offset : BitVec 13)
  | bltu   (rs1 rs2 : RegIdx) (offset : BitVec 13)
  | bgeu   (rs1 rs2 : RegIdx) (offset : BitVec 13)
  -- 43_load_store.md
  | lb     (rd rs1 : RegIdx) (imm : BitVec 12)
  | lh     (rd rs1 : RegIdx) (imm : BitVec 12)
  | lw     (rd rs1 : RegIdx) (imm : BitVec 12)
  | lbu    (rd rs1 : RegIdx) (imm : BitVec 12)
  | lhu    (rd rs1 : RegIdx) (imm : BitVec 12)
  | sb     (rs1 rs2 : RegIdx) (imm : BitVec 12)
  | sh     (rs1 rs2 : RegIdx) (imm : BitVec 12)
  | sw     (rs1 rs2 : RegIdx) (imm : BitVec 12)
  -- 44_integer_immediate.md
  | addi   (rd rs1 : RegIdx) (imm : BitVec 12)
  | slti   (rd rs1 : RegIdx) (imm : BitVec 12)
  | sltiu  (rd rs1 : RegIdx) (imm : BitVec 12)
  | xori   (rd rs1 : RegIdx) (imm : BitVec 12)
  | ori    (rd rs1 : RegIdx) (imm : BitVec 12)
  | andi   (rd rs1 : RegIdx) (imm : BitVec 12)
  | slli   (rd rs1 : RegIdx) (shamt : BitVec 5)
  | srli   (rd rs1 : RegIdx) (shamt : BitVec 5)
  | srai   (rd rs1 : RegIdx) (shamt : BitVec 5)
  -- 45_integer_register.md
  | add    (rd rs1 rs2 : RegIdx)
  | sub    (rd rs1 rs2 : RegIdx)
  | sll    (rd rs1 rs2 : RegIdx)
  | slt    (rd rs1 rs2 : RegIdx)
  | sltu   (rd rs1 rs2 : RegIdx)
  | xor    (rd rs1 rs2 : RegIdx)
  | srl    (rd rs1 rs2 : RegIdx)
  | sra    (rd rs1 rs2 : RegIdx)
  | or     (rd rs1 rs2 : RegIdx)
  | and    (rd rs1 rs2 : RegIdx)
  -- 46_multiply_divide.md
  | mul    (rd rs1 rs2 : RegIdx)
  | mulh   (rd rs1 rs2 : RegIdx)
  | mulhsu (rd rs1 rs2 : RegIdx)
  | mulhu  (rd rs1 rs2 : RegIdx)
  | div    (rd rs1 rs2 : RegIdx)
  | divu   (rd rs1 rs2 : RegIdx)
  | rem    (rd rs1 rs2 : RegIdx)
  | remu   (rd rs1 rs2 : RegIdx)
  -- 47_system.md: `ignored` is w[31:7], which R77 and R78 say selects nothing
  | fence  (ignored : BitVec 25)
  | ecall  (ignored : BitVec 25)
  deriving DecidableEq, Repr

end Sys2Proof
end

