-- ==== Sys2Proof/WellFormed.lean ====
section
/-! DEFINITION. Which `Instr` values stand for an encoding. Field widths are in the types; what is left to check is
that a branch or jump offset is even, since bit 0 of immB and immJ is not encoded (spec/30_encoding.md rules R65,
R67). No instruction is illegal because of its register fields (R81). -/

namespace Sys2Proof

/-- A byte offset whose bit 0 is 0, as R65 and R67 assemble it. -/
def evenOffset {n : Nat} (offset : BitVec n) : Bool := !offset.getLsbD 0

/-- The check on one instruction: each branch and JAL has an even offset (R65, R67). -/
def Instr.wf : Instr → Bool
  | .jal _ offset => evenOffset offset
  | .beq _ _ offset => evenOffset offset
  | .bne _ _ offset => evenOffset offset
  | .blt _ _ offset => evenOffset offset
  | .bge _ _ offset => evenOffset offset
  | .bltu _ _ offset => evenOffset offset
  | .bgeu _ _ offset => evenOffset offset
  | .lui _ _ | .auipc _ _ | .jalr _ _ _ => true
  | .lb _ _ _ | .lh _ _ _ | .lw _ _ _ | .lbu _ _ _ | .lhu _ _ _ => true
  | .sb _ _ _ | .sh _ _ _ | .sw _ _ _ => true
  | .addi _ _ _ | .slti _ _ _ | .sltiu _ _ _ | .xori _ _ _ | .ori _ _ _ | .andi _ _ _ => true
  | .slli _ _ _ | .srli _ _ _ | .srai _ _ _ => true
  | .add _ _ _ | .sub _ _ _ | .sll _ _ _ | .slt _ _ _ | .sltu _ _ _ => true
  | .xor _ _ _ | .srl _ _ _ | .sra _ _ _ | .or _ _ _ | .and _ _ _ => true
  | .mul _ _ _ | .mulh _ _ _ | .mulhsu _ _ _ | .mulhu _ _ _ => true
  | .div _ _ _ | .divu _ _ _ | .rem _ _ _ | .remu _ _ _ => true
  | .fence _ | .ecall _ => true

end Sys2Proof
end

