-- ==== Sys2Proof/Decode.lean ====
section
/-! DEFINITION. Instruction words to instructions and back (spec/30_encoding.md): the fields of R61, the immediates of
R63 to R68, the group decode of R69 to R79, then the encoder by the formats of R62, and spec/opcode_table.json as
rows of match and mask. Opcode values other than 0x73 and most funct values are the spec's decision D26 (log entry
16). Words no rule assigns are `Decoded.unimplemented`, never a neighbouring instruction. -/

namespace Sys2Proof

/-! ### Extension and byte order -/

/-- sext_32 of R11: the field's top bit is copied upward. -/
def sext32 {n : Nat} (v : BitVec n) : Word := v.signExtend 32

/-- zext_32 of R11. -/
def zext32 {n : Nat} (v : BitVec n) : Word := v.setWidth 32

/-- A half-word from its bytes, the byte of the lower address first (R45: little-endian). -/
def halfOfBytes (b0 b1 : Byte) : BitVec 16 := b1 ++ b0

/-- A word from its bytes, the byte of the lowest address first (R45: little-endian). -/
def wordOfBytes (b0 b1 b2 b3 : Byte) : Word := b3 ++ b2 ++ b1 ++ b0

/-- Byte `k` of a word: v[8k+7:8k] of R44. -/
def byteOfWord (v : Word) (k : Nat) : Byte := v.extractLsb' (8 * k) 8

/-- A word's four bytes, lowest address first. -/
def bytesOfWord (v : Word) : List Byte := [byteOfWord v 0, byteOfWord v 1, byteOfWord v 2, byteOfWord v 3]

/-! ### Fields (R61) and immediates (R63 to R68)

`extractLsb' lo n` is the spec's w[lo+n-1:lo]. -/

def opcodeOf (w : Word) : BitVec 7 := w.extractLsb' 0 7
def rdOf (w : Word) : RegIdx := (w.extractLsb' 7 5).toFin
def funct3Of (w : Word) : BitVec 3 := w.extractLsb' 12 3
def rs1Of (w : Word) : RegIdx := (w.extractLsb' 15 5).toFin
def rs2Of (w : Word) : RegIdx := (w.extractLsb' 20 5).toFin
def funct7Of (w : Word) : BitVec 7 := w.extractLsb' 25 7

/-- The 12 bits of the I-immediate, w[31:20] (R63). -/
def fieldI (w : Word) : BitVec 12 := w.extractLsb' 20 12

/-- The 12 bits of the S-immediate, w[31:25] ++ w[11:7] (R64). -/
def fieldS (w : Word) : BitVec 12 := w.extractLsb' 25 7 ++ w.extractLsb' 7 5

/-- The 13 bits of the B-immediate, w[31] ++ w[7] ++ w[30:25] ++ w[11:8] ++ 0 (R65). -/
def fieldB (w : Word) : BitVec 13 :=
  w.extractLsb' 31 1 ++ w.extractLsb' 7 1 ++ w.extractLsb' 25 6 ++ w.extractLsb' 8 4 ++ 0#1

/-- The 20 bits of the U-immediate, w[31:12] (R66). -/
def fieldU (w : Word) : BitVec 20 := w.extractLsb' 12 20

/-- The 21 bits of the J-immediate, w[31] ++ w[19:12] ++ w[20] ++ w[30:21] ++ 0 (R67). -/
def fieldJ (w : Word) : BitVec 21 :=
  w.extractLsb' 31 1 ++ w.extractLsb' 12 8 ++ w.extractLsb' 20 1 ++ w.extractLsb' 21 10 ++ 0#1

/-- The shift amount of SLLI, SRLI and SRAI, w[24:20], unsigned (R68). -/
def shamtOf (w : Word) : BitVec 5 := w.extractLsb' 20 5

/-- w[31:7], which FENCE and ECALL words do not read (R77, R78). -/
def ignoredOf (w : Word) : BitVec 25 := w.extractLsb' 7 25

/-! ### Decode (R69 to R80) -/

/-- What a word decodes to: an instruction of the table, or the unimplemented path of R79 with the whole word (D37). -/
inductive Decoded where
  | instr (i : Instr)
  | unimplemented (w : Word)
  deriving DecidableEq, Repr

/-- R71. -/
def decodeJalr (w : Word) : Decoded :=
  match funct3Of w with
  | 0b000#3 => .instr (.jalr (rdOf w) (rs1Of w) (fieldI w))
  | _ => .unimplemented w

/-- R72. -/
def decodeBranch (w : Word) : Decoded :=
  match funct3Of w with
  | 0b000#3 => .instr (.beq (rs1Of w) (rs2Of w) (fieldB w))
  | 0b001#3 => .instr (.bne (rs1Of w) (rs2Of w) (fieldB w))
  | 0b100#3 => .instr (.blt (rs1Of w) (rs2Of w) (fieldB w))
  | 0b101#3 => .instr (.bge (rs1Of w) (rs2Of w) (fieldB w))
  | 0b110#3 => .instr (.bltu (rs1Of w) (rs2Of w) (fieldB w))
  | 0b111#3 => .instr (.bgeu (rs1Of w) (rs2Of w) (fieldB w))
  | _ => .unimplemented w

/-- R73. -/
def decodeLoad (w : Word) : Decoded :=
  match funct3Of w with
  | 0b000#3 => .instr (.lb (rdOf w) (rs1Of w) (fieldI w))
  | 0b001#3 => .instr (.lh (rdOf w) (rs1Of w) (fieldI w))
  | 0b010#3 => .instr (.lw (rdOf w) (rs1Of w) (fieldI w))
  | 0b100#3 => .instr (.lbu (rdOf w) (rs1Of w) (fieldI w))
  | 0b101#3 => .instr (.lhu (rdOf w) (rs1Of w) (fieldI w))
  | _ => .unimplemented w

/-- R74. -/
def decodeStore (w : Word) : Decoded :=
  match funct3Of w with
  | 0b000#3 => .instr (.sb (rs1Of w) (rs2Of w) (fieldS w))
  | 0b001#3 => .instr (.sh (rs1Of w) (rs2Of w) (fieldS w))
  | 0b010#3 => .instr (.sw (rs1Of w) (rs2Of w) (fieldS w))
  | _ => .unimplemented w

/-- R75: funct7 is read for the shifts only, and matched whole (D13). -/
def decodeOpImm (w : Word) : Decoded :=
  match funct3Of w with
  | 0b000#3 => .instr (.addi (rdOf w) (rs1Of w) (fieldI w))
  | 0b010#3 => .instr (.slti (rdOf w) (rs1Of w) (fieldI w))
  | 0b011#3 => .instr (.sltiu (rdOf w) (rs1Of w) (fieldI w))
  | 0b100#3 => .instr (.xori (rdOf w) (rs1Of w) (fieldI w))
  | 0b110#3 => .instr (.ori (rdOf w) (rs1Of w) (fieldI w))
  | 0b111#3 => .instr (.andi (rdOf w) (rs1Of w) (fieldI w))
  | 0b001#3 =>
    match funct7Of w with
    | 0b0000000#7 => .instr (.slli (rdOf w) (rs1Of w) (shamtOf w))
    | _ => .unimplemented w
  | _ => -- funct3 = 101, the one value left
    match funct7Of w with
    | 0b0000000#7 => .instr (.srli (rdOf w) (rs1Of w) (shamtOf w))
    | 0b0100000#7 => .instr (.srai (rdOf w) (rs1Of w) (shamtOf w))
    | _ => .unimplemented w

/-- The part of R76 with funct7 = 0000000. -/
def decodeOpBase (w : Word) : Decoded :=
  match funct3Of w with
  | 0b000#3 => .instr (.add (rdOf w) (rs1Of w) (rs2Of w))
  | 0b001#3 => .instr (.sll (rdOf w) (rs1Of w) (rs2Of w))
  | 0b010#3 => .instr (.slt (rdOf w) (rs1Of w) (rs2Of w))
  | 0b011#3 => .instr (.sltu (rdOf w) (rs1Of w) (rs2Of w))
  | 0b100#3 => .instr (.xor (rdOf w) (rs1Of w) (rs2Of w))
  | 0b101#3 => .instr (.srl (rdOf w) (rs1Of w) (rs2Of w))
  | 0b110#3 => .instr (.or (rdOf w) (rs1Of w) (rs2Of w))
  | _ => .instr (.and (rdOf w) (rs1Of w) (rs2Of w)) -- funct3 = 111, the one value left

/-- The part of R76 with funct7 = 0100000. -/
def decodeOpAlt (w : Word) : Decoded :=
  match funct3Of w with
  | 0b000#3 => .instr (.sub (rdOf w) (rs1Of w) (rs2Of w))
  | 0b101#3 => .instr (.sra (rdOf w) (rs1Of w) (rs2Of w))
  | _ => .unimplemented w

/-- The part of R76 with funct7 = 0000001: multiply and divide. -/
def decodeOpMulDiv (w : Word) : Decoded :=
  match funct3Of w with
  | 0b000#3 => .instr (.mul (rdOf w) (rs1Of w) (rs2Of w))
  | 0b001#3 => .instr (.mulh (rdOf w) (rs1Of w) (rs2Of w))
  | 0b010#3 => .instr (.mulhsu (rdOf w) (rs1Of w) (rs2Of w))
  | 0b011#3 => .instr (.mulhu (rdOf w) (rs1Of w) (rs2Of w))
  | 0b100#3 => .instr (.div (rdOf w) (rs1Of w) (rs2Of w))
  | 0b101#3 => .instr (.divu (rdOf w) (rs1Of w) (rs2Of w))
  | 0b110#3 => .instr (.rem (rdOf w) (rs1Of w) (rs2Of w))
  | _ => .instr (.remu (rdOf w) (rs1Of w) (rs2Of w)) -- funct3 = 111, the one value left

/-- R76: funct7 is matched whole against its three values (D13). -/
def decodeOp (w : Word) : Decoded :=
  match funct7Of w with
  | 0b0000000#7 => decodeOpBase w
  | 0b0100000#7 => decodeOpAlt w
  | 0b0000001#7 => decodeOpMulDiv w
  | _ => .unimplemented w

/-- The decoder of R69: total, by opcode and then by group. -/
def decodeWord (w : Word) : Decoded :=
  match opcodeOf w with
  | 0x37#7 => .instr (.lui (rdOf w) (fieldU w))
  | 0x17#7 => .instr (.auipc (rdOf w) (fieldU w))
  | 0x6F#7 => .instr (.jal (rdOf w) (fieldJ w))
  | 0x67#7 => decodeJalr w
  | 0x63#7 => decodeBranch w
  | 0x03#7 => decodeLoad w
  | 0x23#7 => decodeStore w
  | 0x13#7 => decodeOpImm w
  | 0x33#7 => decodeOp w
  | 0x0F#7 => .instr (.fence (ignoredOf w))
  | 0x73#7 => .instr (.ecall (ignoredOf w))
  | _ => .unimplemented w

/-- Why a byte sequence holds no instruction word. -/
inductive DecodeError where
  /-- fewer than the 4 bytes of R60 are left. -/
  | tooFewBytes (n : Nat)
  deriving DecidableEq, Repr

/-- The decoder on bytes, lowest address first: every instruction is one little-endian 32-bit word (R60, R45). It
answers what the word decodes to and the bytes after it. -/
def decodeBytes : List Byte → Except DecodeError (Decoded × List Byte)
  | b0 :: b1 :: b2 :: b3 :: rest => .ok (decodeWord (wordOfBytes b0 b1 b2 b3), rest)
  | bs => .error (.tooFewBytes bs.length)

/-- The 32-bit word of an instruction numbered as spec/opcode_table.json numbers it: bits at and above `nbits` are 0. -/
def tableWord (nbits w : Nat) : Word := BitVec.ofNat 32 (w % 2 ^ nbits)

/-- The instruction the decoder reads from a table row's word laid out in memory order; none on the unimplemented path. -/
def decodeTableWord (nbits w : Nat) : Option Instr :=
  match decodeBytes (bytesOfWord (tableWord nbits w)) with
  | .ok (.instr i, _) => some i
  | .ok (.unimplemented _, _) => none
  | .error _ => none

/-! ### Encode (R62) -/

/-- A register number as its 5-bit field (R61). -/
def regBits (r : RegIdx) : BitVec 5 := BitVec.ofFin r

/-- R format. -/
def encR (funct7 : BitVec 7) (rs2 rs1 : RegIdx) (funct3 : BitVec 3) (rd : RegIdx) (opcode : BitVec 7) : Word :=
  funct7 ++ regBits rs2 ++ regBits rs1 ++ funct3 ++ regBits rd ++ opcode

/-- I format. -/
def encI (imm : BitVec 12) (rs1 : RegIdx) (funct3 : BitVec 3) (rd : RegIdx) (opcode : BitVec 7) : Word :=
  imm ++ regBits rs1 ++ funct3 ++ regBits rd ++ opcode

/-- I format of the immediate shifts: the immediate field is funct7 and the shift amount (R68). -/
def encShift (funct7 : BitVec 7) (shamt : BitVec 5) (rs1 : RegIdx) (funct3 : BitVec 3) (rd : RegIdx) : Word :=
  encI (funct7 ++ shamt) rs1 funct3 rd 0x13#7

/-- S format. -/
def encS (imm : BitVec 12) (rs2 rs1 : RegIdx) (funct3 : BitVec 3) : Word :=
  imm.extractLsb' 5 7 ++ regBits rs2 ++ regBits rs1 ++ funct3 ++ imm.extractLsb' 0 5 ++ 0x23#7

/-- B format; bit 0 of the offset is not encoded. -/
def encB (offset : BitVec 13) (rs2 rs1 : RegIdx) (funct3 : BitVec 3) : Word :=
  offset.extractLsb' 12 1 ++ offset.extractLsb' 5 6 ++ regBits rs2 ++ regBits rs1 ++ funct3 ++
    offset.extractLsb' 1 4 ++ offset.extractLsb' 11 1 ++ 0x63#7

/-- U format. -/
def encU (imm : BitVec 20) (rd : RegIdx) (opcode : BitVec 7) : Word := imm ++ regBits rd ++ opcode

/-- J format; bit 0 of the offset is not encoded. -/
def encJ (offset : BitVec 21) (rd : RegIdx) : Word :=
  offset.extractLsb' 20 1 ++ offset.extractLsb' 1 10 ++ offset.extractLsb' 11 1 ++ offset.extractLsb' 12 8 ++
    regBits rd ++ 0x6F#7

/-- The word of an instruction, from the formats of R62 and the values of R69 to R78. -/
def encode : Instr → Word
  | .lui rd imm => encU imm rd 0x37#7
  | .auipc rd imm => encU imm rd 0x17#7
  | .jal rd offset => encJ offset rd
  | .jalr rd rs1 imm => encI imm rs1 0b000#3 rd 0x67#7
  | .beq rs1 rs2 offset => encB offset rs2 rs1 0b000#3
  | .bne rs1 rs2 offset => encB offset rs2 rs1 0b001#3
  | .blt rs1 rs2 offset => encB offset rs2 rs1 0b100#3
  | .bge rs1 rs2 offset => encB offset rs2 rs1 0b101#3
  | .bltu rs1 rs2 offset => encB offset rs2 rs1 0b110#3
  | .bgeu rs1 rs2 offset => encB offset rs2 rs1 0b111#3
  | .lb rd rs1 imm => encI imm rs1 0b000#3 rd 0x03#7
  | .lh rd rs1 imm => encI imm rs1 0b001#3 rd 0x03#7
  | .lw rd rs1 imm => encI imm rs1 0b010#3 rd 0x03#7
  | .lbu rd rs1 imm => encI imm rs1 0b100#3 rd 0x03#7
  | .lhu rd rs1 imm => encI imm rs1 0b101#3 rd 0x03#7
  | .sb rs1 rs2 imm => encS imm rs2 rs1 0b000#3
  | .sh rs1 rs2 imm => encS imm rs2 rs1 0b001#3
  | .sw rs1 rs2 imm => encS imm rs2 rs1 0b010#3
  | .addi rd rs1 imm => encI imm rs1 0b000#3 rd 0x13#7
  | .slti rd rs1 imm => encI imm rs1 0b010#3 rd 0x13#7
  | .sltiu rd rs1 imm => encI imm rs1 0b011#3 rd 0x13#7
  | .xori rd rs1 imm => encI imm rs1 0b100#3 rd 0x13#7
  | .ori rd rs1 imm => encI imm rs1 0b110#3 rd 0x13#7
  | .andi rd rs1 imm => encI imm rs1 0b111#3 rd 0x13#7
  | .slli rd rs1 shamt => encShift 0b0000000#7 shamt rs1 0b001#3 rd
  | .srli rd rs1 shamt => encShift 0b0000000#7 shamt rs1 0b101#3 rd
  | .srai rd rs1 shamt => encShift 0b0100000#7 shamt rs1 0b101#3 rd
  | .add rd rs1 rs2 => encR 0b0000000#7 rs2 rs1 0b000#3 rd 0x33#7
  | .sub rd rs1 rs2 => encR 0b0100000#7 rs2 rs1 0b000#3 rd 0x33#7
  | .sll rd rs1 rs2 => encR 0b0000000#7 rs2 rs1 0b001#3 rd 0x33#7
  | .slt rd rs1 rs2 => encR 0b0000000#7 rs2 rs1 0b010#3 rd 0x33#7
  | .sltu rd rs1 rs2 => encR 0b0000000#7 rs2 rs1 0b011#3 rd 0x33#7
  | .xor rd rs1 rs2 => encR 0b0000000#7 rs2 rs1 0b100#3 rd 0x33#7
  | .srl rd rs1 rs2 => encR 0b0000000#7 rs2 rs1 0b101#3 rd 0x33#7
  | .sra rd rs1 rs2 => encR 0b0100000#7 rs2 rs1 0b101#3 rd 0x33#7
  | .or rd rs1 rs2 => encR 0b0000000#7 rs2 rs1 0b110#3 rd 0x33#7
  | .and rd rs1 rs2 => encR 0b0000000#7 rs2 rs1 0b111#3 rd 0x33#7
  | .mul rd rs1 rs2 => encR 0b0000001#7 rs2 rs1 0b000#3 rd 0x33#7
  | .mulh rd rs1 rs2 => encR 0b0000001#7 rs2 rs1 0b001#3 rd 0x33#7
  | .mulhsu rd rs1 rs2 => encR 0b0000001#7 rs2 rs1 0b010#3 rd 0x33#7
  | .mulhu rd rs1 rs2 => encR 0b0000001#7 rs2 rs1 0b011#3 rd 0x33#7
  | .div rd rs1 rs2 => encR 0b0000001#7 rs2 rs1 0b100#3 rd 0x33#7
  | .divu rd rs1 rs2 => encR 0b0000001#7 rs2 rs1 0b101#3 rd 0x33#7
  | .rem rd rs1 rs2 => encR 0b0000001#7 rs2 rs1 0b110#3 rd 0x33#7
  | .remu rd rs1 rs2 => encR 0b0000001#7 rs2 rs1 0b111#3 rd 0x33#7
  | .fence ignored => ignored ++ 0x0F#7
  | .ecall ignored => ignored ++ 0x73#7

/-! ### The opcode table (spec/opcode_table.json) -/

/-- One row of spec/opcode_table.json: a word is the row's when `word &&& mask = pattern` (R80; the file's "match"). -/
structure OpRow where
  pattern : Word
  mask    : Word
  deriving DecidableEq, Repr

/-- A word matches a row. -/
def OpRow.matches (r : OpRow) (w : Word) : Bool := w &&& r.mask == r.pattern

/-- Rows with only the opcode fixed (mask 0x0000007F). -/
def rowOpcode (pattern : Word) : OpRow := ⟨pattern, 0x0000007F#32⟩

/-- Rows with opcode and funct3 fixed (mask 0x0000707F). -/
def rowFunct3 (pattern : Word) : OpRow := ⟨pattern, 0x0000707F#32⟩

/-- Rows with opcode, funct3 and funct7 fixed (mask 0xFE00707F). -/
def rowFunct7 (pattern : Word) : OpRow := ⟨pattern, 0xFE00707F#32⟩

/-- The table's row of an instruction, transcribed from spec/opcode_table.json and not computed from `encode`. -/
def Instr.row : Instr → OpRow
  | .lui _ _ => rowOpcode 0x00000037#32
  | .auipc _ _ => rowOpcode 0x00000017#32
  | .jal _ _ => rowOpcode 0x0000006F#32
  | .jalr _ _ _ => rowFunct3 0x00000067#32
  | .beq _ _ _ => rowFunct3 0x00000063#32
  | .bne _ _ _ => rowFunct3 0x00001063#32
  | .blt _ _ _ => rowFunct3 0x00004063#32
  | .bge _ _ _ => rowFunct3 0x00005063#32
  | .bltu _ _ _ => rowFunct3 0x00006063#32
  | .bgeu _ _ _ => rowFunct3 0x00007063#32
  | .lb _ _ _ => rowFunct3 0x00000003#32
  | .lh _ _ _ => rowFunct3 0x00001003#32
  | .lw _ _ _ => rowFunct3 0x00002003#32
  | .lbu _ _ _ => rowFunct3 0x00004003#32
  | .lhu _ _ _ => rowFunct3 0x00005003#32
  | .sb _ _ _ => rowFunct3 0x00000023#32
  | .sh _ _ _ => rowFunct3 0x00001023#32
  | .sw _ _ _ => rowFunct3 0x00002023#32
  | .addi _ _ _ => rowFunct3 0x00000013#32
  | .slti _ _ _ => rowFunct3 0x00002013#32
  | .sltiu _ _ _ => rowFunct3 0x00003013#32
  | .xori _ _ _ => rowFunct3 0x00004013#32
  | .ori _ _ _ => rowFunct3 0x00006013#32
  | .andi _ _ _ => rowFunct3 0x00007013#32
  | .slli _ _ _ => rowFunct7 0x00001013#32
  | .srli _ _ _ => rowFunct7 0x00005013#32
  | .srai _ _ _ => rowFunct7 0x40005013#32
  | .add _ _ _ => rowFunct7 0x00000033#32
  | .sub _ _ _ => rowFunct7 0x40000033#32
  | .sll _ _ _ => rowFunct7 0x00001033#32
  | .slt _ _ _ => rowFunct7 0x00002033#32
  | .sltu _ _ _ => rowFunct7 0x00003033#32
  | .xor _ _ _ => rowFunct7 0x00004033#32
  | .srl _ _ _ => rowFunct7 0x00005033#32
  | .sra _ _ _ => rowFunct7 0x40005033#32
  | .or _ _ _ => rowFunct7 0x00006033#32
  | .and _ _ _ => rowFunct7 0x00007033#32
  | .mul _ _ _ => rowFunct7 0x02000033#32
  | .mulh _ _ _ => rowFunct7 0x02001033#32
  | .mulhsu _ _ _ => rowFunct7 0x02002033#32
  | .mulhu _ _ _ => rowFunct7 0x02003033#32
  | .div _ _ _ => rowFunct7 0x02004033#32
  | .divu _ _ _ => rowFunct7 0x02005033#32
  | .rem _ _ _ => rowFunct7 0x02006033#32
  | .remu _ _ _ => rowFunct7 0x02007033#32
  | .fence _ => rowOpcode 0x0000000F#32
  | .ecall _ => rowOpcode 0x00000073#32

/-- One instruction of each constructor, in the table's order; the operand values stand for nothing. -/
def oneOfEach : List Instr :=
  let control : List Instr := [.lui 0 0, .auipc 0 0, .jal 0 0, .jalr 0 0 0, .beq 0 0 0, .bne 0 0 0, .blt 0 0 0,
    .bge 0 0 0, .bltu 0 0 0, .bgeu 0 0 0]
  let memory : List Instr := [.lb 0 0 0, .lh 0 0 0, .lw 0 0 0, .lbu 0 0 0, .lhu 0 0 0, .sb 0 0 0, .sh 0 0 0,
    .sw 0 0 0]
  let immediate : List Instr := [.addi 0 0 0, .slti 0 0 0, .sltiu 0 0 0, .xori 0 0 0, .ori 0 0 0, .andi 0 0 0,
    .slli 0 0 0, .srli 0 0 0, .srai 0 0 0]
  let register : List Instr := [.add 0 0 0, .sub 0 0 0, .sll 0 0 0, .slt 0 0 0, .sltu 0 0 0, .xor 0 0 0, .srl 0 0 0,
    .sra 0 0 0, .or 0 0 0, .and 0 0 0]
  let mulDiv : List Instr := [.mul 0 0 0, .mulh 0 0 0, .mulhsu 0 0 0, .mulhu 0 0 0, .div 0 0 0, .divu 0 0 0,
    .rem 0 0 0, .remu 0 0 0]
  control ++ memory ++ immediate ++ register ++ mulDiv ++ [.fence 0, .ecall 0]

/-- The 47 rows of spec/opcode_table.json (R4), in its order. -/
def opcodeTable : List OpRow := oneOfEach.map Instr.row

end Sys2Proof
end

