-- ==== Sys2Proof/Machine/State.lean ====
section
/-! DEFINITION. The architectural state of spec/10_state.md as plain data, the reasons a step can stop, and the state
at reset (R33). Everything R20 to R33 name is here: register file, pc, memory, run state, console output, and the
diagnostics log beside them. R32 lists what the core does not have. -/

namespace Sys2Proof.Machine

/-- What raised UnmappedAccess (R221). -/
inductive AccessKind where
  | fetch
  | load
  deriving DecidableEq, Repr

/-- The record of an UnmappedAccess (R221): the kind, the first byte address of the access, its size in bytes (4 for a
fetch; 1, 2 or 4 for a load) and the address of the instruction being fetched or executed. -/
structure FaultRecord where
  kind : AccessKind
  addr : Word
  size : Nat
  pc   : Word
  deriving DecidableEq, Repr

/-- Why a run terminated (R28). -/
inductive TermCause where
  /-- ECALL with a0 = 10 (R204). -/
  | ecallExit
  /-- ECALL with any a0 other than 1, 4, 9, 10, 11, which is kept (R205). -/
  | ecallOtherExit (a0 : Word)
  /-- the next pc is unmapped (R243). -/
  | ranOffEnd
  deriving DecidableEq, Repr

/-- The run state of R28. `terminated` and `faulted` are absorbing: no step is taken in them. -/
inductive RunState where
  | running
  | terminated (cause : TermCause)
  | faulted (info : FaultRecord)
  deriving DecidableEq, Repr

/-- A console event with the full 32 bits of a1 (R201, R210). -/
inductive ConsoleEvent where
  | printInt (v : Word)
  | printChar (v : Word)
  deriving DecidableEq, Repr

/-- A diagnostic (R223, R224). No rule reads the log they go to (R31). -/
inductive Diagnostic where
  | alignmentWarning (target : Word)
  | unimplementedOpcode (w : Word)
  deriving DecidableEq, Repr

/-- Memory (R40): the mapped bytes, as (address, byte) pairs with strictly rising addresses below 2^32. -/
abbrev Memory := List Host.Cell

/-- What an address that `Memory` does not list reads as: nothing, for the byte is unmapped (R40, R41;
log entry 22). -/
abbrev Memory.unlisted : Option Byte := none

/-- The canonical form: addresses strictly rise and are 32-bit addresses. A listed byte never equals what an unlisted
address reads as, since that is no byte. -/
abbrev Memory.wf (m : Memory) : Prop := m.Pairwise (fun c d => c.1 < d.1) ∧ ∀ c ∈ m, c.1 < 2 ^ 32

structure State where
  /-- x0 to x31 (R20); slot 0 holds 0 and is read and written through `State.getReg` and `State.setReg` only (R21). -/
  regs    : Vector Word 32
  /-- the address of the instruction being executed (R24). -/
  pc      : Word
  mem     : Memory
  run     : RunState
  /-- console events, oldest first (R30, R210). -/
  console : List ConsoleEvent
  /-- diagnostics, oldest first (R31, R33); no step reads them (log entry 10). -/
  diags   : List Diagnostic
  deriving DecidableEq, Repr

/-- Why a step can stop without a next state. The spec's own fault, UnmappedAccess, is not here: R222 gives its effect,
the run state `faulted`, so it is a next state (log entry 5). -/
inductive Fault where
  /-- Raised by `step` alone, in a state that is `running` while the byte at its pc is unmapped. R242 says there is no
  such state; `Safety.Inv` rules it out and every step keeps that (log entry 7). Safe: the model stops. -/
  | runningAtUnmappedPc (pc : Word)
  deriving DecidableEq, Repr

/-- Inputs the spec gives no meaning. -/
inductive Refusal where
  /-- Raised by a refused arm of `exec` alone, for an instruction without a meaning; no arm is one. Safe. -/
  | notModelled (mnemonic : String)
  /-- Raised by `step` when the run state is not `running`: the host's duty is to stop (R245, R28; 93 section 1 item 13;
  log entry 6). Safe: the model gives no next state. -/
  | notRunning (run : RunState)
  /-- Raised by `launch`: BASE_ADDR is no multiple of 4 (R50, D24). Safe: no run. -/
  | misalignedBase (baseAddr : Word)
  /-- Raised by `launch`: BASE_ADDR + 4n exceeds 2^32 (R50, D25). Safe: no run. -/
  | imageWraps (baseAddr : Word) (words : Nat)
  /-- Raised by `launchBytes`: the image is no whole number of words (R50, D24). Safe: no run. -/
  | partialWord (bytes : Nat)
  deriving DecidableEq, Repr

/-- The state of R33 with the parameters of `Config` and no image: no byte is mapped, so the run state is
`terminated ranOffEnd` (R33, D39). Log entry 4 says how a program comes to run. -/
def State.reset : State where
  regs    := (Vector.replicate 32 Config.regInit |>.set 0 0#32).set 2 Config.spInit
  pc      := Config.baseAddr
  mem     := []
  run     := .terminated .ranOffEnd
  console := []
  diags   := []

end Sys2Proof.Machine
end

