-- ==== Sys2Proof/Machine/Ops.lean ====
section
/-! DEFINITION. The operations every meaning is written over: memory bytes and the accessors of spec/20_memory.md,
register reads and writes (spec/10_state.md R21), the end of a step (R25, R242, R243), console events and
diagnostics, and taking UnmappedAccess (spec/60_exceptions.md R222), the core's only exception. The core has no
return from an exception (R229). -/

namespace Sys2Proof.Machine

/-! ### Memory (20_memory.md) -/

/-- The byte at a listed address, else what an unlisted address reads as. -/
def Memory.lookup : Memory → Nat → Option Byte
  | [], _ => Memory.unlisted
  | (a, b) :: rest, k => if a = k then some b else Memory.lookup rest k

/-- The memory with one byte replaced or added, in canonical form. -/
def Memory.insert : Memory → Nat → Byte → Memory
  | [], k, v => [(k, v)]
  | (a, b) :: rest, k, v =>
    if k < a then (k, v) :: (a, b) :: rest
    else if k = a then (k, v) :: rest
    else (a, b) :: Memory.insert rest k v

/-- M[a] (R40): the byte, or none where the address is unmapped. -/
def Memory.readByte (m : Memory) (a : Word) : Option Byte := m.lookup a.toNat

/-- contains(a) of R42. -/
def Memory.mapped (m : Memory) (a : Word) : Bool := (m.readByte a).isSome

/-- MemRead(a, 2) of R43: none if one of its bytes is unmapped; the addresses wrap modulo 2^32 (D6). -/
def Memory.readHalf (m : Memory) (a : Word) : Option (BitVec 16) :=
  match m.readByte a, m.readByte (a + 1) with
  | some b0, some b1 => some (halfOfBytes b0 b1)
  | _, _ => none

/-- MemRead(a, 4) of R43. -/
def Memory.readWord (m : Memory) (a : Word) : Option Word :=
  match m.readByte a, m.readByte (a + 1), m.readByte (a + 2), m.readByte (a + 3) with
  | some b0, some b1, some b2, some b3 => some (wordOfBytes b0 b1 b2 b3)
  | _, _, _, _ => none

/-- MemWrite(a, 1, v) of R44: the low byte of v; the byte becomes mapped if it was not. -/
def Memory.storeByte (m : Memory) (a v : Word) : Memory := m.insert a.toNat (byteOfWord v 0)

/-- MemWrite(a, 2, v) of R44; the addresses wrap modulo 2^32 (D6). -/
def Memory.storeHalf (m : Memory) (a v : Word) : Memory :=
  (m.storeByte a v).insert (a + 1).toNat (byteOfWord v 1)

/-- MemWrite(a, 4, v) of R44. -/
def Memory.storeWord (m : Memory) (a v : Word) : Memory :=
  ((m.storeHalf a v).insert (a + 2).toNat (byteOfWord v 2)).insert (a + 3).toNat (byteOfWord v 3)

/-! ### Registers (R20, R21) -/

/-- x[r]; x0 reads 0. -/
def State.getReg (s : State) (r : RegIdx) : Word := if r = 0 then 0#32 else s.regs.get r

/-- x[r] <- v; a write to x0 is discarded, which R21 says is observably the write followed by the forced reset
(DEDUCED, log entry 15). -/
def State.setReg (s : State) (r : RegIdx) (v : Word) : State :=
  if r = 0 then s else { s with regs := s.regs.set r.val v r.isLt }

/-- a0 is x10 (R22, R200). -/
def regA0 : RegIdx := 10

/-- a1 is x11 (R22, R200; D33). -/
def regA1 : RegIdx := 11

/-! ### The end of a step (R25, R242, R243) -/

/-- The pc takes its next value; if the byte there is unmapped, in the memory after the step's stores, the run ends. -/
def State.goto (s : State) (next : Word) : State :=
  if s.mem.mapped next then { s with pc := next } else { s with pc := next, run := .terminated .ranOffEnd }

/-- The end of a step that does not redirect: pc <- pc + 4, modulo 2^32 (R25, R27). -/
def State.advance (s : State) : State := s.goto (s.pc + 4)

/-- A diagnostic is logged (R31). -/
def State.diagnose (s : State) (d : Diagnostic) : State := { s with diags := s.diags ++ [d] }

/-- The end of a step that redirects: a target that is no multiple of 4 warns and is taken all the same (R110, R223). -/
def State.redirect (s : State) (target : Word) : State :=
  (if target.extractLsb' 0 2 = 0#2 then s else s.diagnose (.alignmentWarning target)).goto target

/-- The end of a step that writes x[rd] and does not redirect. -/
def State.retire (s : State) (rd : RegIdx) (v : Word) : State := (s.setReg rd v).advance

/-- The end of a step that stores and does not redirect. -/
def State.retireStore (s : State) (m : Memory) : State := { s with mem := m }.advance

/-- The run ends by an environment call, and the pc stays at the ECALL (R204, R205; D16). -/
def State.terminate (s : State) (c : TermCause) : State := { s with run := .terminated c }

/-- A console event is appended (R210). -/
def State.emit (s : State) (e : ConsoleEvent) : State := { s with console := s.console ++ [e] }

/-! ### Taking UnmappedAccess (R221, R222) -/

/-- The faulting step changes nothing but the run state, which records the access. -/
def State.raiseUnmapped (s : State) (kind : AccessKind) (addr : Word) (size : Nat) : State :=
  { s with run := .faulted ⟨kind, addr, size, s.pc⟩ }

/-- The end of a load: x[rd] takes the value read, or UnmappedAccess is raised where a byte was unmapped, also for
rd = 0 (R121 to R125, R130). -/
def State.retireLoad (s : State) (rd : RegIdx) (addr : Word) (size : Nat) (value : Option Word) : State :=
  match value with
  | some v => s.retire rd v
  | none => s.raiseUnmapped .load addr size

/-! ### Fetch (R242) -/

/-- MemRead(pc, 4): the word at the pc, whatever pc mod 4 is (R46), or none where a byte of it is unmapped. -/
def State.fetchWord (s : State) : Option Word := s.mem.readWord s.pc

/-- A word placed where the next step fetches, with the run state that a mapped pc gives (R241 step 5). -/
def State.placeWord (s : State) (w : Word) : State := { s with mem := s.mem.storeWord s.pc w, run := .running }

end Sys2Proof.Machine
end

