-- ==== Sys2Proof/Machine/Operands.lean ====
section
/-! DEFINITION. The operand forms of spec/30_encoding.md R81 and the addresses computed from them: immediates (R63 to
R67), effective addresses (R120), jump and branch targets (R100 to R102) and shift amounts (R68, R162). Every
operand is a value at the start of the step (R13). All sums wrap modulo 2^32 (R10, R27). -/

namespace Sys2Proof.Machine

/-- The 32-bit immI or immS of a 12-bit field (R63, R64). -/
def imm12 (imm : BitVec 12) : Word := sext32 imm

/-- immU: the 20-bit field above twelve zero bits (R66). -/
def immUpper (imm : BitVec 20) : Word := imm ++ 0#12

/-- x[rs1] + imm: the one addressing mode, of loads and of stores (R120). -/
def State.effAddr (s : State) (rs1 : RegIdx) (imm : BitVec 12) : Word := s.getReg rs1 + imm12 imm

/-- pc + 4, the link of JAL and JALR (R100, R101). -/
def State.link (s : State) : Word := s.pc + 4

/-- pc + immJ (R67, R100). -/
def State.jalTarget (s : State) (offset : BitVec 21) : Word := s.pc + sext32 offset

/-- (x[rs1] + immI) AND 0xFFFFFFFE, from x[rs1] at the start of the step (R101; D5). -/
def State.jalrTarget (s : State) (rs1 : RegIdx) (imm : BitVec 12) : Word :=
  (s.getReg rs1 + imm12 imm) &&& 0xFFFFFFFE#32

/-- pc + immB (R65, R102). -/
def State.branchTarget (s : State) (offset : BitVec 13) : Word := s.pc + sext32 offset

/-- x[rs2][4:0], the shift amount of SLL, SRL and SRA (R162, R166, R167; D20). -/
def shiftAmount (v : Word) : BitVec 5 := v.extractLsb' 0 5

end Sys2Proof.Machine
end

