-- ==== Sys2Proof/Machine/Flags.lean ====
section
/-! DEFINITION. The core has no condition codes and no flags (spec/10_state.md R32): no instruction sets one. What
another machine would compute into flags is here: the comparisons that branches and set-if-less-than make directly
on two values (spec/42_control_transfer.md R102 to R108, spec/44 R141, R142, spec/45 R163, R164). -/

namespace Sys2Proof.Machine

/-- a <s b of R10. -/
def lessSigned (a b : Word) : Bool := decide (a.toInt < b.toInt)

/-- a <u b of R10: what the source calls widening and masking. -/
def lessUnsigned (a b : Word) : Bool := decide (a.toNat < b.toNat)

/-- The result of a set-if-less-than: exactly 1 or 0 (R141). -/
def boolWord (c : Bool) : Word := if c then 1#32 else 0#32

end Sys2Proof.Machine
end

