-- ==== Sys2Proof/Machine/Control.lean ====
section
/-! DEFINITION. JAL, JALR and the branches (spec/42_control_transfer.md): the only instructions that redirect the pc.
None has a delay slot (R251), and a target that is no multiple of 4 only warns (R110). -/

namespace Sys2Proof.Machine

/-- R100: the target is computed from the JAL's own pc, before the link is written (R13). -/
def execJal (rd : RegIdx) (offset : BitVec 21) (s : State) : Host.Outcome State Fault Refusal :=
  .next ((s.setReg rd s.link).redirect (s.jalTarget offset))

/-- R101: the base is x[rs1] before the link is written, also where rd = rs1 (D5). -/
def execJalr (rd rs1 : RegIdx) (imm : BitVec 12) (s : State) : Host.Outcome State Fault Refusal :=
  .next ((s.setReg rd s.link).redirect (s.jalrTarget rs1 imm))

/-- The common part of the branches (R102). -/
def branchIf (taken : Bool) (offset : BitVec 13) (s : State) : Host.Outcome State Fault Refusal :=
  .next (if taken then s.redirect (s.branchTarget offset) else s.advance)

/-- R103's condition. -/
def takenBeq (s : State) (rs1 rs2 : RegIdx) : Bool := s.getReg rs1 == s.getReg rs2

/-- R104's condition. -/
def takenBne (s : State) (rs1 rs2 : RegIdx) : Bool := s.getReg rs1 != s.getReg rs2

/-- R105's condition. -/
def takenBlt (s : State) (rs1 rs2 : RegIdx) : Bool := lessSigned (s.getReg rs1) (s.getReg rs2)

/-- R106's condition. -/
def takenBge (s : State) (rs1 rs2 : RegIdx) : Bool := !lessSigned (s.getReg rs1) (s.getReg rs2)

/-- R107's condition. -/
def takenBltu (s : State) (rs1 rs2 : RegIdx) : Bool := lessUnsigned (s.getReg rs1) (s.getReg rs2)

/-- R108's condition. -/
def takenBgeu (s : State) (rs1 rs2 : RegIdx) : Bool := !lessUnsigned (s.getReg rs1) (s.getReg rs2)

/-- R103. -/
def execBeq (rs1 rs2 : RegIdx) (offset : BitVec 13) (s : State) : Host.Outcome State Fault Refusal :=
  branchIf (takenBeq s rs1 rs2) offset s

/-- R104. -/
def execBne (rs1 rs2 : RegIdx) (offset : BitVec 13) (s : State) : Host.Outcome State Fault Refusal :=
  branchIf (takenBne s rs1 rs2) offset s

/-- R105. -/
def execBlt (rs1 rs2 : RegIdx) (offset : BitVec 13) (s : State) : Host.Outcome State Fault Refusal :=
  branchIf (takenBlt s rs1 rs2) offset s

/-- R106. -/
def execBge (rs1 rs2 : RegIdx) (offset : BitVec 13) (s : State) : Host.Outcome State Fault Refusal :=
  branchIf (takenBge s rs1 rs2) offset s

/-- R107. -/
def execBltu (rs1 rs2 : RegIdx) (offset : BitVec 13) (s : State) : Host.Outcome State Fault Refusal :=
  branchIf (takenBltu s rs1 rs2) offset s

/-- R108. -/
def execBgeu (rs1 rs2 : RegIdx) (offset : BitVec 13) (s : State) : Host.Outcome State Fault Refusal :=
  branchIf (takenBgeu s rs1 rs2) offset s

end Sys2Proof.Machine
end

