-- ==== Sys2Proof/Machine/LoadStore.lean ====
section
/-! DEFINITION. Loads and stores (spec/43_load_store.md): base plus signed 12-bit displacement (R120), no alignment
(R46), no base update (R129). A load of an unmapped byte takes UnmappedAccess (R222), also with rd = 0 (R130); a
store never faults and maps its bytes (R44). -/

namespace Sys2Proof.Machine

/-- R121: sign-extended byte. -/
def execLb (rd rs1 : RegIdx) (imm : BitVec 12) (s : State) : Host.Outcome State Fault Refusal :=
  .next (s.retireLoad rd (s.effAddr rs1 imm) 1 ((s.mem.readByte (s.effAddr rs1 imm)).map sext32))

/-- R122: sign-extended half-word. -/
def execLh (rd rs1 : RegIdx) (imm : BitVec 12) (s : State) : Host.Outcome State Fault Refusal :=
  .next (s.retireLoad rd (s.effAddr rs1 imm) 2 ((s.mem.readHalf (s.effAddr rs1 imm)).map sext32))

/-- R123: word. -/
def execLw (rd rs1 : RegIdx) (imm : BitVec 12) (s : State) : Host.Outcome State Fault Refusal :=
  .next (s.retireLoad rd (s.effAddr rs1 imm) 4 (s.mem.readWord (s.effAddr rs1 imm)))

/-- R124: zero-extended byte. -/
def execLbu (rd rs1 : RegIdx) (imm : BitVec 12) (s : State) : Host.Outcome State Fault Refusal :=
  .next (s.retireLoad rd (s.effAddr rs1 imm) 1 ((s.mem.readByte (s.effAddr rs1 imm)).map zext32))

/-- R125: zero-extended half-word. -/
def execLhu (rd rs1 : RegIdx) (imm : BitVec 12) (s : State) : Host.Outcome State Fault Refusal :=
  .next (s.retireLoad rd (s.effAddr rs1 imm) 2 ((s.mem.readHalf (s.effAddr rs1 imm)).map zext32))

/-- R126: the low byte of x[rs2]. -/
def execSb (rs1 rs2 : RegIdx) (imm : BitVec 12) (s : State) : Host.Outcome State Fault Refusal :=
  .next (s.retireStore (s.mem.storeByte (s.effAddr rs1 imm) (s.getReg rs2)))

/-- R127: the low half-word of x[rs2]. -/
def execSh (rs1 rs2 : RegIdx) (imm : BitVec 12) (s : State) : Host.Outcome State Fault Refusal :=
  .next (s.retireStore (s.mem.storeHalf (s.effAddr rs1 imm) (s.getReg rs2)))

/-- R128: all of x[rs2]. -/
def execSw (rs1 rs2 : RegIdx) (imm : BitVec 12) (s : State) : Host.Outcome State Fault Refusal :=
  .next (s.retireStore (s.mem.storeWord (s.effAddr rs1 imm) (s.getReg rs2)))

end Sys2Proof.Machine
end

