-- ==== Sys2Proof/Machine/IntImmediate.lean ====
section
/-! DEFINITION. Integer register-immediate instructions (spec/44_integer_immediate.md). None raises an exception or
sets a flag; every immediate is sign-extended, SLTIU's too (R142; D11, C2). -/

namespace Sys2Proof.Machine

/-- The common shape: x[rd] <- f(x[rs1], immI); pc <- pc + 4. -/
def opImm (f : Word → Word → Word) (rd rs1 : RegIdx) (imm : BitVec 12) (s : State) :
    Host.Outcome State Fault Refusal :=
  .next (s.retire rd (f (s.getReg rs1) (imm12 imm)))

/-- The common shape of the immediate shifts: x[rd] <- f(x[rs1], shamt); pc <- pc + 4 (R68). -/
def opShiftImm (f : Word → BitVec 5 → Word) (rd rs1 : RegIdx) (shamt : BitVec 5) (s : State) :
    Host.Outcome State Fault Refusal :=
  .next (s.retire rd (f (s.getReg rs1) shamt))

/-- A left shift, zeros shifted in (R146, R162). -/
def shiftLeft (a : Word) (sh : BitVec 5) : Word := a <<< sh.toNat

/-- zext_32(a[31:sh]) (R147, R166). -/
def shiftRightLogical (a : Word) (sh : BitVec 5) : Word := a >>> sh.toNat

/-- sext_32(a[31:sh]) (R148, R167). -/
def shiftRightArith (a : Word) (sh : BitVec 5) : Word := a.sshiftRight sh.toNat

/-- R140: wraps modulo 2^32. -/
def execAddi (rd rs1 : RegIdx) (imm : BitVec 12) (s : State) : Host.Outcome State Fault Refusal :=
  opImm (fun a b => a + b) rd rs1 imm s

/-- R141: signed comparison. -/
def execSlti (rd rs1 : RegIdx) (imm : BitVec 12) (s : State) : Host.Outcome State Fault Refusal :=
  opImm (fun a b => boolWord (lessSigned a b)) rd rs1 imm s

/-- R142: the sign-extended immediate, compared unsigned. -/
def execSltiu (rd rs1 : RegIdx) (imm : BitVec 12) (s : State) : Host.Outcome State Fault Refusal :=
  opImm (fun a b => boolWord (lessUnsigned a b)) rd rs1 imm s

/-- R143. -/
def execXori (rd rs1 : RegIdx) (imm : BitVec 12) (s : State) : Host.Outcome State Fault Refusal :=
  opImm (fun a b => a ^^^ b) rd rs1 imm s

/-- R144. -/
def execOri (rd rs1 : RegIdx) (imm : BitVec 12) (s : State) : Host.Outcome State Fault Refusal :=
  opImm (fun a b => a ||| b) rd rs1 imm s

/-- R145. -/
def execAndi (rd rs1 : RegIdx) (imm : BitVec 12) (s : State) : Host.Outcome State Fault Refusal :=
  opImm (fun a b => a &&& b) rd rs1 imm s

/-- R146. -/
def execSlli (rd rs1 : RegIdx) (shamt : BitVec 5) (s : State) : Host.Outcome State Fault Refusal :=
  opShiftImm shiftLeft rd rs1 shamt s

/-- R147. -/
def execSrli (rd rs1 : RegIdx) (shamt : BitVec 5) (s : State) : Host.Outcome State Fault Refusal :=
  opShiftImm shiftRightLogical rd rs1 shamt s

/-- R148. -/
def execSrai (rd rs1 : RegIdx) (shamt : BitVec 5) (s : State) : Host.Outcome State Fault Refusal :=
  opShiftImm shiftRightArith rd rs1 shamt s

end Sys2Proof.Machine
end

