-- ==== Sys2Proof/Machine/IntRegister.lean ====
section
/-! DEFINITION. Integer register-register instructions (spec/45_integer_register.md). None raises an exception or
sets a flag; both operands are read before the write (R13), and x0 as rs1 needs no case of its own in SLTU (R164). -/

namespace Sys2Proof.Machine

/-- The common shape: x[rd] <- f(x[rs1], x[rs2]); pc <- pc + 4. -/
def opReg (f : Word → Word → Word) (rd rs1 rs2 : RegIdx) (s : State) : Host.Outcome State Fault Refusal :=
  .next (s.retire rd (f (s.getReg rs1) (s.getReg rs2)))

/-- R160: wraps modulo 2^32. -/
def execAdd (rd rs1 rs2 : RegIdx) (s : State) : Host.Outcome State Fault Refusal :=
  opReg (fun a b => a + b) rd rs1 rs2 s

/-- R161: wraps modulo 2^32. -/
def execSub (rd rs1 rs2 : RegIdx) (s : State) : Host.Outcome State Fault Refusal :=
  opReg (fun a b => a - b) rd rs1 rs2 s

/-- R162: the shift amount is x[rs2][4:0] (D20). -/
def execSll (rd rs1 rs2 : RegIdx) (s : State) : Host.Outcome State Fault Refusal :=
  opReg (fun a b => shiftLeft a (shiftAmount b)) rd rs1 rs2 s

/-- R163. -/
def execSlt (rd rs1 rs2 : RegIdx) (s : State) : Host.Outcome State Fault Refusal :=
  opReg (fun a b => boolWord (lessSigned a b)) rd rs1 rs2 s

/-- R164. -/
def execSltu (rd rs1 rs2 : RegIdx) (s : State) : Host.Outcome State Fault Refusal :=
  opReg (fun a b => boolWord (lessUnsigned a b)) rd rs1 rs2 s

/-- R165. -/
def execXor (rd rs1 rs2 : RegIdx) (s : State) : Host.Outcome State Fault Refusal :=
  opReg (fun a b => a ^^^ b) rd rs1 rs2 s

/-- R166. -/
def execSrl (rd rs1 rs2 : RegIdx) (s : State) : Host.Outcome State Fault Refusal :=
  opReg (fun a b => shiftRightLogical a (shiftAmount b)) rd rs1 rs2 s

/-- R167. -/
def execSra (rd rs1 rs2 : RegIdx) (s : State) : Host.Outcome State Fault Refusal :=
  opReg (fun a b => shiftRightArith a (shiftAmount b)) rd rs1 rs2 s

/-- R168. -/
def execOr (rd rs1 rs2 : RegIdx) (s : State) : Host.Outcome State Fault Refusal :=
  opReg (fun a b => a ||| b) rd rs1 rs2 s

/-- R169. -/
def execAnd (rd rs1 rs2 : RegIdx) (s : State) : Host.Outcome State Fault Refusal :=
  opReg (fun a b => a &&& b) rd rs1 rs2 s

end Sys2Proof.Machine
end

