-- ==== Sys2Proof/Machine/MulDiv.lean ====
section
/-! DEFINITION. Multiply and divide (spec/46_multiply_divide.md). Products and quotients are computed on exact integers and
then truncated (R10). None raises an exception or sets a flag, division by zero included (R225). The rounding,
the overflow results and MULHSU's operand order are the spec's decisions D21 and D22 (log entry 16). -/

namespace Sys2Proof.Machine

/-- trunc_64(z)[63:32] of an exact product z. -/
def highWord (z : Int) : Word := (BitVec.ofInt 64 z).extractLsb' 32 32

/-- R180: trunc_32 of the exact signed product. -/
def mulLow (a b : Word) : Word := BitVec.ofInt 32 (a.toInt * b.toInt)

/-- R181: signed × signed. -/
def mulHighSigned (a b : Word) : Word := highWord (a.toInt * b.toInt)

/-- R182: signed × unsigned, rs1 the signed operand (D22). -/
def mulHighMixed (a b : Word) : Word := highWord (a.toInt * (b.toNat : Int))

/-- R183: unsigned × unsigned. -/
def mulHighUnsigned (a b : Word) : Word := highWord ((a.toNat : Int) * (b.toNat : Int))

/-- The one overflow of signed division, -2^31 by -1 (R184, R186). -/
def divOverflows (a b : Word) : Bool := a == 0x80000000#32 && b == 0xFFFFFFFF#32

/-- R184: all ones by zero, 0x80000000 on overflow, else the quotient rounded toward zero. -/
def divSigned (a b : Word) : Word :=
  if b = 0#32 then 0xFFFFFFFF#32
  else if divOverflows a b then 0x80000000#32
  else BitVec.ofInt 32 (a.toInt.tdiv b.toInt)

/-- R185: all ones by zero, else the floor of the quotient. -/
def divUnsigned (a b : Word) : Word :=
  if b = 0#32 then 0xFFFFFFFF#32 else BitVec.ofNat 32 (a.toNat / b.toNat)

/-- R186: the dividend by zero, 0 on overflow, else the remainder with the dividend's sign. -/
def remSigned (a b : Word) : Word :=
  if b = 0#32 then a
  else if divOverflows a b then 0#32
  else BitVec.ofInt 32 (a.toInt - b.toInt * a.toInt.tdiv b.toInt)

/-- R187: the dividend by zero, else the remainder. -/
def remUnsigned (a b : Word) : Word :=
  if b = 0#32 then a else BitVec.ofNat 32 (a.toNat % b.toNat)

/-- R180. -/
def execMul (rd rs1 rs2 : RegIdx) (s : State) : Host.Outcome State Fault Refusal :=
  opReg mulLow rd rs1 rs2 s

/-- R181. -/
def execMulh (rd rs1 rs2 : RegIdx) (s : State) : Host.Outcome State Fault Refusal :=
  opReg mulHighSigned rd rs1 rs2 s

/-- R182. -/
def execMulhsu (rd rs1 rs2 : RegIdx) (s : State) : Host.Outcome State Fault Refusal :=
  opReg mulHighMixed rd rs1 rs2 s

/-- R183. -/
def execMulhu (rd rs1 rs2 : RegIdx) (s : State) : Host.Outcome State Fault Refusal :=
  opReg mulHighUnsigned rd rs1 rs2 s

/-- R184. -/
def execDiv (rd rs1 rs2 : RegIdx) (s : State) : Host.Outcome State Fault Refusal :=
  opReg divSigned rd rs1 rs2 s

/-- R185. -/
def execDivu (rd rs1 rs2 : RegIdx) (s : State) : Host.Outcome State Fault Refusal :=
  opReg divUnsigned rd rs1 rs2 s

/-- R186. -/
def execRem (rd rs1 rs2 : RegIdx) (s : State) : Host.Outcome State Fault Refusal :=
  opReg remSigned rd rs1 rs2 s

/-- R187. -/
def execRemu (rd rs1 rs2 : RegIdx) (s : State) : Host.Outcome State Fault Refusal :=
  opReg remUnsigned rd rs1 rs2 s

end Sys2Proof.Machine
end

