-- ==== Sys2Proof/Machine/System.lean ====
section
/-! DEFINITION. The environment call, the fence and the unimplemented path (spec/47_system.md). ECALL is no trap: it
performs its service in the same step (R228). -/

namespace Sys2Proof.Machine

/-- R208: pc <- pc + 4. There is nothing to order (R53). -/
def execFence (_ignored : BitVec 25) (s : State) : Host.Outcome State Fault Refusal :=
  .next s.advance

/-- R200 to R205: the service chosen by all 32 bits of a0 (D38). Services 4 and 9 are no-ops (R202, R203); 10 ends the
run; any other value writes 0 to a1 and ends the run, keeping a0 in the cause. -/
def ecallService (s : State) : State :=
  if s.getReg regA0 = 1#32 then (s.emit (.printInt (s.getReg regA1))).advance
  else if s.getReg regA0 = 4#32 then s.advance
  else if s.getReg regA0 = 9#32 then s.advance
  else if s.getReg regA0 = 10#32 then s.terminate .ecallExit
  else if s.getReg regA0 = 11#32 then (s.emit (.printChar (s.getReg regA1))).advance
  else (s.setReg regA1 0#32).terminate (.ecallOtherExit (s.getReg regA0))

/-- w[14:12] of an opcode-0x73 word whose bits 31:7 are `ignored`. -/
def systemFunct3 (ignored : BitVec 25) : BitVec 3 := ignored.extractLsb' 5 3

/-- A word of opcode 0x73 under either value of SYSTEM_SUBDECODE (R8, D14): `ecallAll` gives every such word the
environment call; under `csrNoop` a word whose funct3 is not 000 is a no-op that advances the pc. -/
def execSystemUnder (sub : SystemSubdecode) (ignored : BitVec 25) (s : State) : Host.Outcome State Fault Refusal :=
  match sub with
  | .ecallAll => .next (ecallService s)
  | .csrNoop => .next (if systemFunct3 ignored = 0#3 then ecallService s else s.advance)

/-- R200, R207: every word of opcode 0x73, under the decided value of the parameter. -/
def execEcall (ignored : BitVec 25) (s : State) : Host.Outcome State Fault Refusal :=
  execSystemUnder Config.systemSubdecode ignored s

/-- R209: the diagnostic carries the whole word (D37), and pc <- pc + 4. No row of the table is this path: `step` takes
it for a word that decodes to no instruction. -/
def execUnimplemented (w : Word) (s : State) : Host.Outcome State Fault Refusal :=
  .next (s.diagnose (.unimplementedOpcode w)).advance

end Sys2Proof.Machine
end

