-- ==== Sys2Proof/Machine/UpperImmediate.lean ====
section
/-! DEFINITION. LUI and AUIPC (spec/41_upper_immediate.md). -/

namespace Sys2Proof.Machine

/-- R90: x[rd] <- immU. -/
def execLui (rd : RegIdx) (imm : BitVec 20) (s : State) : Host.Outcome State Fault Refusal :=
  .next (s.retire rd (immUpper imm))

/-- R91: x[rd] <- pc + immU, with the AUIPC's own pc. -/
def execAuipc (rd : RegIdx) (imm : BitVec 20) (s : State) : Host.Outcome State Fault Refusal :=
  .next (s.retire rd (s.pc + immUpper imm))

end Sys2Proof.Machine
end

