-- ==== Sys2Proof/Machine/Step.lean ====
section
/-! DEFINITION. One step (spec/70_reset_and_hazards.md R242): fetch, decode, execute and commit. The commit, with the
check for an unmapped next pc, is each meaning's own end (`State.goto`, `State.terminate`, `State.raiseUnmapped`). -/

namespace Sys2Proof.Machine

/-- What one instruction word does: its instruction's meaning, or the unimplemented path (R79, R209). -/
def runWord (w : Word) (s : State) : Host.Outcome State Fault Refusal :=
  match decodeWord w with
  | .instr i => exec i s
  | .unimplemented w => execUnimplemented w s

/-- R242 in a `running` state whose pc is mapped: a word only partly mapped takes UnmappedAccess of kind Fetch (R221). -/
def fetchAndRun (s : State) : Host.Outcome State Fault Refusal :=
  match s.fetchWord with
  | some w => runWord w s
  | none => .next (s.raiseUnmapped .fetch s.pc 4)

/-- R242, R28: one step. Outside `running` no step is taken (log entry 6); a `running` state at an unmapped pc does not
arise (R242; log entry 7). -/
def step (s : State) : Host.Outcome State Fault Refusal :=
  match s.run with
  | .running => if s.mem.mapped s.pc then fetchAndRun s else .fault (.runningAtUnmappedPc s.pc)
  | .terminated c => .refused (.notRunning (.terminated c))
  | .faulted r => .refused (.notRunning (.faulted r))

/-- `s` with the instruction word numbered `w` at its pc and running, so that the next step fetches and runs exactly
it (log entry 4). -/
def State.withFetchWord (s : State) (nbits w : Nat) : State := s.placeWord (tableWord nbits w)

end Sys2Proof.Machine
end

