-- ==== Sys2Proof/Laws/Decode.lean ====
section
/-! SUPPORT. The bits of every concatenation of Decode.lean, and from them: a word from its bytes, the fields of each
format's encoding (spec/30_encoding.md R61, R62), and a word from its fields. -/

namespace Sys2Proof

variable (funct7 opcode : BitVec 7) (rs2 rs1 rd : RegIdx) (funct3 : BitVec 3) (w : Word) (k : Nat)

@[simp] theorem toFin_regBits (r : RegIdx) : (regBits r).toFin = r := rfl
@[simp] theorem regBits_zero : regBits 0 = 0#5 := rfl
@[simp] theorem regBits_toFin (v : BitVec 5) : regBits v.toFin = v := rfl

/-! ### Bits of the concatenations -/

theorem halfOfBytes_bit (b0 b1 : Byte) :
    (halfOfBytes b0 b1).getLsbD k = if k < 8 then b0.getLsbD k else b1.getLsbD (k - 8) := by
  change @BitVec.getLsbD (8 + 8) (b1 ++ b0) k = _
  simp only [BitVec.getLsbD_append]

theorem wordOfBytes_bit (b0 b1 b2 b3 : Byte) :
    (wordOfBytes b0 b1 b2 b3).getLsbD k =
      if k < 8 then b0.getLsbD k else if k - 8 < 8 then b1.getLsbD (k - 8)
      else if k - 8 - 8 < 8 then b2.getLsbD (k - 8 - 8) else b3.getLsbD (k - 8 - 8 - 8) := by
  change @BitVec.getLsbD (8 + 8 + 8 + 8) (b3 ++ b2 ++ b1 ++ b0) k = _
  simp only [BitVec.getLsbD_append]

theorem encR_bit :
    (encR funct7 rs2 rs1 funct3 rd opcode).getLsbD k =
      if k < 7 then opcode.getLsbD k else if k - 7 < 5 then (regBits rd).getLsbD (k - 7)
      else if k - 7 - 5 < 3 then funct3.getLsbD (k - 7 - 5)
      else if k - 7 - 5 - 3 < 5 then (regBits rs1).getLsbD (k - 7 - 5 - 3)
      else if k - 7 - 5 - 3 - 5 < 5 then (regBits rs2).getLsbD (k - 7 - 5 - 3 - 5)
      else funct7.getLsbD (k - 7 - 5 - 3 - 5 - 5) := by
  change @BitVec.getLsbD (7 + 5 + 5 + 3 + 5 + 7)
    (funct7 ++ regBits rs2 ++ regBits rs1 ++ funct3 ++ regBits rd ++ opcode) k = _
  simp only [BitVec.getLsbD_append]

theorem encI_bit (imm : BitVec 12) :
    (encI imm rs1 funct3 rd opcode).getLsbD k =
      if k < 7 then opcode.getLsbD k else if k - 7 < 5 then (regBits rd).getLsbD (k - 7)
      else if k - 7 - 5 < 3 then funct3.getLsbD (k - 7 - 5)
      else if k - 7 - 5 - 3 < 5 then (regBits rs1).getLsbD (k - 7 - 5 - 3)
      else imm.getLsbD (k - 7 - 5 - 3 - 5) := by
  change @BitVec.getLsbD (12 + 5 + 3 + 5 + 7) (imm ++ regBits rs1 ++ funct3 ++ regBits rd ++ opcode) k = _
  simp only [BitVec.getLsbD_append]

theorem encS_bit (imm : BitVec 12) :
    (encS imm rs2 rs1 funct3).getLsbD k =
      if k < 7 then (0x23#7).getLsbD k else if k - 7 < 5 then (imm.extractLsb' 0 5).getLsbD (k - 7)
      else if k - 7 - 5 < 3 then funct3.getLsbD (k - 7 - 5)
      else if k - 7 - 5 - 3 < 5 then (regBits rs1).getLsbD (k - 7 - 5 - 3)
      else if k - 7 - 5 - 3 - 5 < 5 then (regBits rs2).getLsbD (k - 7 - 5 - 3 - 5)
      else (imm.extractLsb' 5 7).getLsbD (k - 7 - 5 - 3 - 5 - 5) := by
  change @BitVec.getLsbD (7 + 5 + 5 + 3 + 5 + 7)
    (imm.extractLsb' 5 7 ++ regBits rs2 ++ regBits rs1 ++ funct3 ++ imm.extractLsb' 0 5 ++ 0x23#7) k = _
  simp only [BitVec.getLsbD_append]

theorem encB_bit (offset : BitVec 13) :
    (encB offset rs2 rs1 funct3).getLsbD k =
      if k < 7 then (0x63#7).getLsbD k else if k - 7 < 1 then (offset.extractLsb' 11 1).getLsbD (k - 7)
      else if k - 7 - 1 < 4 then (offset.extractLsb' 1 4).getLsbD (k - 7 - 1)
      else if k - 7 - 1 - 4 < 3 then funct3.getLsbD (k - 7 - 1 - 4)
      else if k - 7 - 1 - 4 - 3 < 5 then (regBits rs1).getLsbD (k - 7 - 1 - 4 - 3)
      else if k - 7 - 1 - 4 - 3 - 5 < 5 then (regBits rs2).getLsbD (k - 7 - 1 - 4 - 3 - 5)
      else if k - 7 - 1 - 4 - 3 - 5 - 5 < 6 then (offset.extractLsb' 5 6).getLsbD (k - 7 - 1 - 4 - 3 - 5 - 5)
      else (offset.extractLsb' 12 1).getLsbD (k - 7 - 1 - 4 - 3 - 5 - 5 - 6) := by
  change @BitVec.getLsbD (1 + 6 + 5 + 5 + 3 + 4 + 1 + 7)
    (offset.extractLsb' 12 1 ++ offset.extractLsb' 5 6 ++ regBits rs2 ++ regBits rs1 ++ funct3 ++
      offset.extractLsb' 1 4 ++ offset.extractLsb' 11 1 ++ 0x63#7) k = _
  simp only [BitVec.getLsbD_append]

theorem encU_bit (imm : BitVec 20) :
    (encU imm rd opcode).getLsbD k =
      if k < 7 then opcode.getLsbD k else if k - 7 < 5 then (regBits rd).getLsbD (k - 7)
      else imm.getLsbD (k - 7 - 5) := by
  change @BitVec.getLsbD (20 + 5 + 7) (imm ++ regBits rd ++ opcode) k = _
  simp only [BitVec.getLsbD_append]

theorem encJ_bit (offset : BitVec 21) :
    (encJ offset rd).getLsbD k =
      if k < 7 then (0x6F#7).getLsbD k else if k - 7 < 5 then (regBits rd).getLsbD (k - 7)
      else if k - 7 - 5 < 8 then (offset.extractLsb' 12 8).getLsbD (k - 7 - 5)
      else if k - 7 - 5 - 8 < 1 then (offset.extractLsb' 11 1).getLsbD (k - 7 - 5 - 8)
      else if k - 7 - 5 - 8 - 1 < 10 then (offset.extractLsb' 1 10).getLsbD (k - 7 - 5 - 8 - 1)
      else (offset.extractLsb' 20 1).getLsbD (k - 7 - 5 - 8 - 1 - 10) := by
  change @BitVec.getLsbD (1 + 10 + 1 + 8 + 5 + 7)
    (offset.extractLsb' 20 1 ++ offset.extractLsb' 1 10 ++ offset.extractLsb' 11 1 ++ offset.extractLsb' 12 8 ++
      regBits rd ++ 0x6F#7) k = _
  simp only [BitVec.getLsbD_append]

theorem shiftField_bit (shamt : BitVec 5) :
    BitVec.getLsbD (w := 12) (funct7 ++ shamt) k =
      if k < 5 then shamt.getLsbD k else funct7.getLsbD (k - 5) := by
  change @BitVec.getLsbD (7 + 5) (funct7 ++ shamt) k = _
  simp only [BitVec.getLsbD_append]

/-- The bits of a FENCE or ECALL word. -/
theorem ignored_bit (ignored : BitVec 25) :
    BitVec.getLsbD (w := 32) (ignored ++ opcode) k =
      if k < 7 then opcode.getLsbD k else ignored.getLsbD (k - 7) := by
  change @BitVec.getLsbD (25 + 7) (ignored ++ opcode) k = _
  simp only [BitVec.getLsbD_append]

theorem fieldS_bit :
    (fieldS w).getLsbD k = if k < 5 then (w.extractLsb' 7 5).getLsbD k else (w.extractLsb' 25 7).getLsbD (k - 5) := by
  change @BitVec.getLsbD (7 + 5) (w.extractLsb' 25 7 ++ w.extractLsb' 7 5) k = _
  simp only [BitVec.getLsbD_append]

theorem fieldB_bit :
    (fieldB w).getLsbD k =
      if k < 1 then (0#1).getLsbD k else if k - 1 < 4 then (w.extractLsb' 8 4).getLsbD (k - 1)
      else if k - 1 - 4 < 6 then (w.extractLsb' 25 6).getLsbD (k - 1 - 4)
      else if k - 1 - 4 - 6 < 1 then (w.extractLsb' 7 1).getLsbD (k - 1 - 4 - 6)
      else (w.extractLsb' 31 1).getLsbD (k - 1 - 4 - 6 - 1) := by
  change @BitVec.getLsbD (1 + 1 + 6 + 4 + 1)
    (w.extractLsb' 31 1 ++ w.extractLsb' 7 1 ++ w.extractLsb' 25 6 ++ w.extractLsb' 8 4 ++ 0#1) k = _
  simp only [BitVec.getLsbD_append]

theorem fieldJ_bit :
    (fieldJ w).getLsbD k =
      if k < 1 then (0#1).getLsbD k else if k - 1 < 10 then (w.extractLsb' 21 10).getLsbD (k - 1)
      else if k - 1 - 10 < 1 then (w.extractLsb' 20 1).getLsbD (k - 1 - 10)
      else if k - 1 - 10 - 1 < 8 then (w.extractLsb' 12 8).getLsbD (k - 1 - 10 - 1)
      else (w.extractLsb' 31 1).getLsbD (k - 1 - 10 - 1 - 8) := by
  change @BitVec.getLsbD (1 + 8 + 1 + 10 + 1)
    (w.extractLsb' 31 1 ++ w.extractLsb' 12 8 ++ w.extractLsb' 20 1 ++ w.extractLsb' 21 10 ++ 0#1) k = _
  simp only [BitVec.getLsbD_append]

/-! ### Bytes -/

/-- A word is its bytes, in the order of R45. -/
@[simp] theorem wordOfBytes_byteOfWord (v : Word) :
    wordOfBytes (byteOfWord v 0) (byteOfWord v 1) (byteOfWord v 2) (byteOfWord v 3) = v := by
  apply BitVec.eq_of_getLsbD_eq
  intro i hi
  rw [wordOfBytes_bit]
  interval_cases i <;> simp [byteOfWord]

/-- A half-word is its bytes, in the order of R45. -/
theorem halfOfBytes_byteOfWord (v : Word) : halfOfBytes (byteOfWord v 0) (byteOfWord v 1) = v.setWidth 16 := by
  apply BitVec.eq_of_getLsbD_eq
  intro i hi
  rw [halfOfBytes_bit]
  interval_cases i <;> simp [byteOfWord]

@[simp] theorem decodeBytes_bytesOfWord (v : Word) (rest : List Byte) :
    decodeBytes (bytesOfWord v ++ rest) = .ok (decodeWord v, rest) := by
  simp [bytesOfWord, decodeBytes]

/-- The table-word decoder is the word decoder. -/
theorem decodeTableWord_eq (nbits n : Nat) :
    decodeTableWord nbits n =
      match decodeWord (tableWord nbits n) with
      | .instr i => some i
      | .unimplemented _ => none := by
  have h := decodeBytes_bytesOfWord (tableWord nbits n) []
  rw [List.append_nil] at h
  rw [decodeTableWord, h]
  cases decodeWord (tableWord nbits n) <;> rfl

/-! ### Fields of each format's encoding -/

@[simp] theorem opcodeOf_encR : opcodeOf (encR funct7 rs2 rs1 funct3 rd opcode) = opcode := by
  apply BitVec.eq_of_getLsbD_eq
  intro i hi
  interval_cases i <;> simp only [opcodeOf, BitVec.getLsbD_extractLsb', encR_bit] <;> simp

@[simp] theorem rdOf_encR : rdOf (encR funct7 rs2 rs1 funct3 rd opcode) = rd := by
  have h : BitVec.extractLsb' 7 5 (encR funct7 rs2 rs1 funct3 rd opcode) = regBits rd := by
    apply BitVec.eq_of_getLsbD_eq
    intro i hi
    interval_cases i <;> simp only [BitVec.getLsbD_extractLsb', encR_bit] <;> simp
  rw [rdOf, h, toFin_regBits]

@[simp] theorem funct3Of_encR : funct3Of (encR funct7 rs2 rs1 funct3 rd opcode) = funct3 := by
  apply BitVec.eq_of_getLsbD_eq
  intro i hi
  interval_cases i <;> simp only [funct3Of, BitVec.getLsbD_extractLsb', encR_bit] <;> simp

@[simp] theorem rs1Of_encR : rs1Of (encR funct7 rs2 rs1 funct3 rd opcode) = rs1 := by
  have h : BitVec.extractLsb' 15 5 (encR funct7 rs2 rs1 funct3 rd opcode) = regBits rs1 := by
    apply BitVec.eq_of_getLsbD_eq
    intro i hi
    interval_cases i <;> simp only [BitVec.getLsbD_extractLsb', encR_bit] <;> simp
  rw [rs1Of, h, toFin_regBits]

@[simp] theorem rs2Of_encR : rs2Of (encR funct7 rs2 rs1 funct3 rd opcode) = rs2 := by
  have h : BitVec.extractLsb' 20 5 (encR funct7 rs2 rs1 funct3 rd opcode) = regBits rs2 := by
    apply BitVec.eq_of_getLsbD_eq
    intro i hi
    interval_cases i <;> simp only [BitVec.getLsbD_extractLsb', encR_bit] <;> simp
  rw [rs2Of, h, toFin_regBits]

@[simp] theorem funct7Of_encR : funct7Of (encR funct7 rs2 rs1 funct3 rd opcode) = funct7 := by
  apply BitVec.eq_of_getLsbD_eq
  intro i hi
  interval_cases i <;> simp only [funct7Of, BitVec.getLsbD_extractLsb', encR_bit] <;> simp

@[simp] theorem opcodeOf_encI (imm : BitVec 12) : opcodeOf (encI imm rs1 funct3 rd opcode) = opcode := by
  apply BitVec.eq_of_getLsbD_eq
  intro i hi
  interval_cases i <;> simp only [opcodeOf, BitVec.getLsbD_extractLsb', encI_bit] <;> simp

@[simp] theorem rdOf_encI (imm : BitVec 12) : rdOf (encI imm rs1 funct3 rd opcode) = rd := by
  have h : BitVec.extractLsb' 7 5 (encI imm rs1 funct3 rd opcode) = regBits rd := by
    apply BitVec.eq_of_getLsbD_eq
    intro i hi
    interval_cases i <;> simp only [BitVec.getLsbD_extractLsb', encI_bit] <;> simp
  rw [rdOf, h, toFin_regBits]

@[simp] theorem funct3Of_encI (imm : BitVec 12) : funct3Of (encI imm rs1 funct3 rd opcode) = funct3 := by
  apply BitVec.eq_of_getLsbD_eq
  intro i hi
  interval_cases i <;> simp only [funct3Of, BitVec.getLsbD_extractLsb', encI_bit] <;> simp

@[simp] theorem rs1Of_encI (imm : BitVec 12) : rs1Of (encI imm rs1 funct3 rd opcode) = rs1 := by
  have h : BitVec.extractLsb' 15 5 (encI imm rs1 funct3 rd opcode) = regBits rs1 := by
    apply BitVec.eq_of_getLsbD_eq
    intro i hi
    interval_cases i <;> simp only [BitVec.getLsbD_extractLsb', encI_bit] <;> simp
  rw [rs1Of, h, toFin_regBits]

@[simp] theorem fieldI_encI (imm : BitVec 12) : fieldI (encI imm rs1 funct3 rd opcode) = imm := by
  apply BitVec.eq_of_getLsbD_eq
  intro i hi
  interval_cases i <;> simp only [fieldI, BitVec.getLsbD_extractLsb', encI_bit] <;> simp

@[simp] theorem opcodeOf_encS (imm : BitVec 12) : opcodeOf (encS imm rs2 rs1 funct3) = 0x23#7 := by
  apply BitVec.eq_of_getLsbD_eq
  intro i hi
  interval_cases i <;> simp only [opcodeOf, BitVec.getLsbD_extractLsb', encS_bit] <;> simp

@[simp] theorem funct3Of_encS (imm : BitVec 12) : funct3Of (encS imm rs2 rs1 funct3) = funct3 := by
  apply BitVec.eq_of_getLsbD_eq
  intro i hi
  interval_cases i <;> simp only [funct3Of, BitVec.getLsbD_extractLsb', encS_bit] <;> simp

@[simp] theorem rs1Of_encS (imm : BitVec 12) : rs1Of (encS imm rs2 rs1 funct3) = rs1 := by
  have h : BitVec.extractLsb' 15 5 (encS imm rs2 rs1 funct3) = regBits rs1 := by
    apply BitVec.eq_of_getLsbD_eq
    intro i hi
    interval_cases i <;> simp only [BitVec.getLsbD_extractLsb', encS_bit] <;> simp
  rw [rs1Of, h, toFin_regBits]

@[simp] theorem rs2Of_encS (imm : BitVec 12) : rs2Of (encS imm rs2 rs1 funct3) = rs2 := by
  have h : BitVec.extractLsb' 20 5 (encS imm rs2 rs1 funct3) = regBits rs2 := by
    apply BitVec.eq_of_getLsbD_eq
    intro i hi
    interval_cases i <;> simp only [BitVec.getLsbD_extractLsb', encS_bit] <;> simp
  rw [rs2Of, h, toFin_regBits]

@[simp] theorem fieldS_encS (imm : BitVec 12) : fieldS (encS imm rs2 rs1 funct3) = imm := by
  apply BitVec.eq_of_getLsbD_eq
  intro i hi
  interval_cases i <;> simp only [fieldS_bit, BitVec.getLsbD_extractLsb', encS_bit] <;> simp

@[simp] theorem opcodeOf_encB (offset : BitVec 13) : opcodeOf (encB offset rs2 rs1 funct3) = 0x63#7 := by
  apply BitVec.eq_of_getLsbD_eq
  intro i hi
  interval_cases i <;> simp only [opcodeOf, BitVec.getLsbD_extractLsb', encB_bit] <;> simp

@[simp] theorem funct3Of_encB (offset : BitVec 13) : funct3Of (encB offset rs2 rs1 funct3) = funct3 := by
  apply BitVec.eq_of_getLsbD_eq
  intro i hi
  interval_cases i <;> simp only [funct3Of, BitVec.getLsbD_extractLsb', encB_bit] <;> simp

@[simp] theorem rs1Of_encB (offset : BitVec 13) : rs1Of (encB offset rs2 rs1 funct3) = rs1 := by
  have h : BitVec.extractLsb' 15 5 (encB offset rs2 rs1 funct3) = regBits rs1 := by
    apply BitVec.eq_of_getLsbD_eq
    intro i hi
    interval_cases i <;> simp only [BitVec.getLsbD_extractLsb', encB_bit] <;> simp
  rw [rs1Of, h, toFin_regBits]

@[simp] theorem rs2Of_encB (offset : BitVec 13) : rs2Of (encB offset rs2 rs1 funct3) = rs2 := by
  have h : BitVec.extractLsb' 20 5 (encB offset rs2 rs1 funct3) = regBits rs2 := by
    apply BitVec.eq_of_getLsbD_eq
    intro i hi
    interval_cases i <;> simp only [BitVec.getLsbD_extractLsb', encB_bit] <;> simp
  rw [rs2Of, h, toFin_regBits]

@[simp] theorem opcodeOf_encU (imm : BitVec 20) : opcodeOf (encU imm rd opcode) = opcode := by
  apply BitVec.eq_of_getLsbD_eq
  intro i hi
  interval_cases i <;> simp only [opcodeOf, BitVec.getLsbD_extractLsb', encU_bit] <;> simp

@[simp] theorem rdOf_encU (imm : BitVec 20) : rdOf (encU imm rd opcode) = rd := by
  have h : BitVec.extractLsb' 7 5 (encU imm rd opcode) = regBits rd := by
    apply BitVec.eq_of_getLsbD_eq
    intro i hi
    interval_cases i <;> simp only [BitVec.getLsbD_extractLsb', encU_bit] <;> simp
  rw [rdOf, h, toFin_regBits]

@[simp] theorem fieldU_encU (imm : BitVec 20) : fieldU (encU imm rd opcode) = imm := by
  apply BitVec.eq_of_getLsbD_eq
  intro i hi
  interval_cases i <;> simp only [fieldU, BitVec.getLsbD_extractLsb', encU_bit] <;> simp

@[simp] theorem opcodeOf_encJ (offset : BitVec 21) : opcodeOf (encJ offset rd) = 0x6F#7 := by
  apply BitVec.eq_of_getLsbD_eq
  intro i hi
  interval_cases i <;> simp only [opcodeOf, BitVec.getLsbD_extractLsb', encJ_bit] <;> simp

@[simp] theorem rdOf_encJ (offset : BitVec 21) : rdOf (encJ offset rd) = rd := by
  have h : BitVec.extractLsb' 7 5 (encJ offset rd) = regBits rd := by
    apply BitVec.eq_of_getLsbD_eq
    intro i hi
    interval_cases i <;> simp only [BitVec.getLsbD_extractLsb', encJ_bit] <;> simp
  rw [rdOf, h, toFin_regBits]

end Sys2Proof
end

