-- ==== Sys2Proof/Laws/PerInstr.lean ====
section
/-! SUPPORT. Statements about every instruction as syntax, one lemma per constructor. `OwnRow`: the encoder, written from
the formats of spec/30_encoding.md R62, gives a word of the instruction's own row of spec/opcode_table.json. -/

namespace Sys2Proof

/-! ### A format's word under a row's mask keeps its fixed fields alone -/

theorem encR_masked (funct7 opcode : BitVec 7) (rs2 rs1 rd : RegIdx) (funct3 : BitVec 3) :
    encR funct7 rs2 rs1 funct3 rd opcode &&& 0xFE00707F#32 = encR funct7 0 0 funct3 0 opcode := by
  apply BitVec.eq_of_getLsbD_eq
  intro i hi
  simp only [BitVec.getLsbD_and, encR_bit]
  interval_cases i <;> simp

theorem encI_masked (imm : BitVec 12) (rs1 rd : RegIdx) (funct3 : BitVec 3) (opcode : BitVec 7) :
    encI imm rs1 funct3 rd opcode &&& 0x0000707F#32 = encI 0 0 funct3 0 opcode := by
  apply BitVec.eq_of_getLsbD_eq
  intro i hi
  simp only [BitVec.getLsbD_and, encI_bit]
  interval_cases i <;> simp

theorem encShift_masked (funct7 : BitVec 7) (shamt : BitVec 5) (rs1 rd : RegIdx) (funct3 : BitVec 3) :
    encShift funct7 shamt rs1 funct3 rd &&& 0xFE00707F#32 = encShift funct7 0 0 funct3 0 := by
  apply BitVec.eq_of_getLsbD_eq
  intro i hi
  simp only [BitVec.getLsbD_and, encShift, encI_bit, shiftField_bit]
  interval_cases i <;> simp

theorem encS_masked (imm : BitVec 12) (rs2 rs1 : RegIdx) (funct3 : BitVec 3) :
    encS imm rs2 rs1 funct3 &&& 0x0000707F#32 = encS 0 0 0 funct3 := by
  apply BitVec.eq_of_getLsbD_eq
  intro i hi
  simp only [BitVec.getLsbD_and, encS_bit]
  interval_cases i <;> simp

theorem encB_masked (offset : BitVec 13) (rs2 rs1 : RegIdx) (funct3 : BitVec 3) :
    encB offset rs2 rs1 funct3 &&& 0x0000707F#32 = encB 0 0 0 funct3 := by
  apply BitVec.eq_of_getLsbD_eq
  intro i hi
  simp only [BitVec.getLsbD_and, encB_bit]
  interval_cases i <;> simp

theorem encU_masked (imm : BitVec 20) (rd : RegIdx) (opcode : BitVec 7) :
    encU imm rd opcode &&& 0x0000007F#32 = encU 0 0 opcode := by
  apply BitVec.eq_of_getLsbD_eq
  intro i hi
  simp only [BitVec.getLsbD_and, encU_bit]
  interval_cases i <;> simp

theorem encJ_masked (offset : BitVec 21) (rd : RegIdx) :
    encJ offset rd &&& 0x0000007F#32 = encJ 0 0 := by
  apply BitVec.eq_of_getLsbD_eq
  intro i hi
  simp only [BitVec.getLsbD_and, encJ_bit]
  interval_cases i <;> simp

theorem ignored_masked (ignored : BitVec 25) (opcode : BitVec 7) :
    (ignored ++ opcode : Word) &&& 0x0000007F#32 = ((0 : BitVec 25) ++ opcode : Word) := by
  apply BitVec.eq_of_getLsbD_eq
  intro i hi
  simp only [BitVec.getLsbD_and, ignored_bit]
  interval_cases i <;> simp

/-- The statement of the family: the word of an instruction matches the instruction's own row. -/
def Laws.OwnRow.Statement (i : Instr) : Prop := i.row.matches (encode i) = true

/-- A word whose masked form is the pattern matches the row. -/
theorem OpRow.matches_of {r : OpRow} {w m : Word} (hw : w &&& r.mask = m) (hm : m = r.pattern) : r.matches w = true := by
  simp [OpRow.matches, hw, hm]

theorem Laws.OwnRow.lui (rd : RegIdx) (imm : BitVec 20) : Laws.OwnRow.Statement (.lui rd imm) :=
  OpRow.matches_of (encU_masked _ _ _) (by rfl)
theorem Laws.OwnRow.auipc (rd : RegIdx) (imm : BitVec 20) : Laws.OwnRow.Statement (.auipc rd imm) :=
  OpRow.matches_of (encU_masked _ _ _) (by rfl)
theorem Laws.OwnRow.jal (rd : RegIdx) (offset : BitVec 21) : Laws.OwnRow.Statement (.jal rd offset) :=
  OpRow.matches_of (encJ_masked _ _) (by rfl)
theorem Laws.OwnRow.jalr (rd rs1 : RegIdx) (imm : BitVec 12) : Laws.OwnRow.Statement (.jalr rd rs1 imm) :=
  OpRow.matches_of (encI_masked _ _ _ _ _) (by rfl)
theorem Laws.OwnRow.beq (rs1 rs2 : RegIdx) (offset : BitVec 13) : Laws.OwnRow.Statement (.beq rs1 rs2 offset) :=
  OpRow.matches_of (encB_masked _ _ _ _) (by rfl)
theorem Laws.OwnRow.bne (rs1 rs2 : RegIdx) (offset : BitVec 13) : Laws.OwnRow.Statement (.bne rs1 rs2 offset) :=
  OpRow.matches_of (encB_masked _ _ _ _) (by rfl)
theorem Laws.OwnRow.blt (rs1 rs2 : RegIdx) (offset : BitVec 13) : Laws.OwnRow.Statement (.blt rs1 rs2 offset) :=
  OpRow.matches_of (encB_masked _ _ _ _) (by rfl)
theorem Laws.OwnRow.bge (rs1 rs2 : RegIdx) (offset : BitVec 13) : Laws.OwnRow.Statement (.bge rs1 rs2 offset) :=
  OpRow.matches_of (encB_masked _ _ _ _) (by rfl)
theorem Laws.OwnRow.bltu (rs1 rs2 : RegIdx) (offset : BitVec 13) : Laws.OwnRow.Statement (.bltu rs1 rs2 offset) :=
  OpRow.matches_of (encB_masked _ _ _ _) (by rfl)
theorem Laws.OwnRow.bgeu (rs1 rs2 : RegIdx) (offset : BitVec 13) : Laws.OwnRow.Statement (.bgeu rs1 rs2 offset) :=
  OpRow.matches_of (encB_masked _ _ _ _) (by rfl)
theorem Laws.OwnRow.lb (rd rs1 : RegIdx) (imm : BitVec 12) : Laws.OwnRow.Statement (.lb rd rs1 imm) :=
  OpRow.matches_of (encI_masked _ _ _ _ _) (by rfl)
theorem Laws.OwnRow.lh (rd rs1 : RegIdx) (imm : BitVec 12) : Laws.OwnRow.Statement (.lh rd rs1 imm) :=
  OpRow.matches_of (encI_masked _ _ _ _ _) (by rfl)
theorem Laws.OwnRow.lw (rd rs1 : RegIdx) (imm : BitVec 12) : Laws.OwnRow.Statement (.lw rd rs1 imm) :=
  OpRow.matches_of (encI_masked _ _ _ _ _) (by rfl)
theorem Laws.OwnRow.lbu (rd rs1 : RegIdx) (imm : BitVec 12) : Laws.OwnRow.Statement (.lbu rd rs1 imm) :=
  OpRow.matches_of (encI_masked _ _ _ _ _) (by rfl)
theorem Laws.OwnRow.lhu (rd rs1 : RegIdx) (imm : BitVec 12) : Laws.OwnRow.Statement (.lhu rd rs1 imm) :=
  OpRow.matches_of (encI_masked _ _ _ _ _) (by rfl)
theorem Laws.OwnRow.sb (rs1 rs2 : RegIdx) (imm : BitVec 12) : Laws.OwnRow.Statement (.sb rs1 rs2 imm) :=
  OpRow.matches_of (encS_masked _ _ _ _) (by rfl)
theorem Laws.OwnRow.sh (rs1 rs2 : RegIdx) (imm : BitVec 12) : Laws.OwnRow.Statement (.sh rs1 rs2 imm) :=
  OpRow.matches_of (encS_masked _ _ _ _) (by rfl)
theorem Laws.OwnRow.sw (rs1 rs2 : RegIdx) (imm : BitVec 12) : Laws.OwnRow.Statement (.sw rs1 rs2 imm) :=
  OpRow.matches_of (encS_masked _ _ _ _) (by rfl)
theorem Laws.OwnRow.addi (rd rs1 : RegIdx) (imm : BitVec 12) : Laws.OwnRow.Statement (.addi rd rs1 imm) :=
  OpRow.matches_of (encI_masked _ _ _ _ _) (by rfl)
theorem Laws.OwnRow.slti (rd rs1 : RegIdx) (imm : BitVec 12) : Laws.OwnRow.Statement (.slti rd rs1 imm) :=
  OpRow.matches_of (encI_masked _ _ _ _ _) (by rfl)
theorem Laws.OwnRow.sltiu (rd rs1 : RegIdx) (imm : BitVec 12) : Laws.OwnRow.Statement (.sltiu rd rs1 imm) :=
  OpRow.matches_of (encI_masked _ _ _ _ _) (by rfl)
theorem Laws.OwnRow.xori (rd rs1 : RegIdx) (imm : BitVec 12) : Laws.OwnRow.Statement (.xori rd rs1 imm) :=
  OpRow.matches_of (encI_masked _ _ _ _ _) (by rfl)
theorem Laws.OwnRow.ori (rd rs1 : RegIdx) (imm : BitVec 12) : Laws.OwnRow.Statement (.ori rd rs1 imm) :=
  OpRow.matches_of (encI_masked _ _ _ _ _) (by rfl)
theorem Laws.OwnRow.andi (rd rs1 : RegIdx) (imm : BitVec 12) : Laws.OwnRow.Statement (.andi rd rs1 imm) :=
  OpRow.matches_of (encI_masked _ _ _ _ _) (by rfl)
theorem Laws.OwnRow.slli (rd rs1 : RegIdx) (shamt : BitVec 5) : Laws.OwnRow.Statement (.slli rd rs1 shamt) :=
  OpRow.matches_of (encShift_masked _ _ _ _ _) (by rfl)
theorem Laws.OwnRow.srli (rd rs1 : RegIdx) (shamt : BitVec 5) : Laws.OwnRow.Statement (.srli rd rs1 shamt) :=
  OpRow.matches_of (encShift_masked _ _ _ _ _) (by rfl)
theorem Laws.OwnRow.srai (rd rs1 : RegIdx) (shamt : BitVec 5) : Laws.OwnRow.Statement (.srai rd rs1 shamt) :=
  OpRow.matches_of (encShift_masked _ _ _ _ _) (by rfl)
theorem Laws.OwnRow.add (rd rs1 rs2 : RegIdx) : Laws.OwnRow.Statement (.add rd rs1 rs2) :=
  OpRow.matches_of (encR_masked _ _ _ _ _ _) (by rfl)
theorem Laws.OwnRow.sub (rd rs1 rs2 : RegIdx) : Laws.OwnRow.Statement (.sub rd rs1 rs2) :=
  OpRow.matches_of (encR_masked _ _ _ _ _ _) (by rfl)
theorem Laws.OwnRow.sll (rd rs1 rs2 : RegIdx) : Laws.OwnRow.Statement (.sll rd rs1 rs2) :=
  OpRow.matches_of (encR_masked _ _ _ _ _ _) (by rfl)
theorem Laws.OwnRow.slt (rd rs1 rs2 : RegIdx) : Laws.OwnRow.Statement (.slt rd rs1 rs2) :=
  OpRow.matches_of (encR_masked _ _ _ _ _ _) (by rfl)
theorem Laws.OwnRow.sltu (rd rs1 rs2 : RegIdx) : Laws.OwnRow.Statement (.sltu rd rs1 rs2) :=
  OpRow.matches_of (encR_masked _ _ _ _ _ _) (by rfl)
theorem Laws.OwnRow.xor (rd rs1 rs2 : RegIdx) : Laws.OwnRow.Statement (.xor rd rs1 rs2) :=
  OpRow.matches_of (encR_masked _ _ _ _ _ _) (by rfl)
theorem Laws.OwnRow.srl (rd rs1 rs2 : RegIdx) : Laws.OwnRow.Statement (.srl rd rs1 rs2) :=
  OpRow.matches_of (encR_masked _ _ _ _ _ _) (by rfl)
theorem Laws.OwnRow.sra (rd rs1 rs2 : RegIdx) : Laws.OwnRow.Statement (.sra rd rs1 rs2) :=
  OpRow.matches_of (encR_masked _ _ _ _ _ _) (by rfl)
theorem Laws.OwnRow.or (rd rs1 rs2 : RegIdx) : Laws.OwnRow.Statement (.or rd rs1 rs2) :=
  OpRow.matches_of (encR_masked _ _ _ _ _ _) (by rfl)
theorem Laws.OwnRow.and (rd rs1 rs2 : RegIdx) : Laws.OwnRow.Statement (.and rd rs1 rs2) :=
  OpRow.matches_of (encR_masked _ _ _ _ _ _) (by rfl)
theorem Laws.OwnRow.mul (rd rs1 rs2 : RegIdx) : Laws.OwnRow.Statement (.mul rd rs1 rs2) :=
  OpRow.matches_of (encR_masked _ _ _ _ _ _) (by rfl)
theorem Laws.OwnRow.mulh (rd rs1 rs2 : RegIdx) : Laws.OwnRow.Statement (.mulh rd rs1 rs2) :=
  OpRow.matches_of (encR_masked _ _ _ _ _ _) (by rfl)
theorem Laws.OwnRow.mulhsu (rd rs1 rs2 : RegIdx) : Laws.OwnRow.Statement (.mulhsu rd rs1 rs2) :=
  OpRow.matches_of (encR_masked _ _ _ _ _ _) (by rfl)
theorem Laws.OwnRow.mulhu (rd rs1 rs2 : RegIdx) : Laws.OwnRow.Statement (.mulhu rd rs1 rs2) :=
  OpRow.matches_of (encR_masked _ _ _ _ _ _) (by rfl)
theorem Laws.OwnRow.div (rd rs1 rs2 : RegIdx) : Laws.OwnRow.Statement (.div rd rs1 rs2) :=
  OpRow.matches_of (encR_masked _ _ _ _ _ _) (by rfl)
theorem Laws.OwnRow.divu (rd rs1 rs2 : RegIdx) : Laws.OwnRow.Statement (.divu rd rs1 rs2) :=
  OpRow.matches_of (encR_masked _ _ _ _ _ _) (by rfl)
theorem Laws.OwnRow.rem (rd rs1 rs2 : RegIdx) : Laws.OwnRow.Statement (.rem rd rs1 rs2) :=
  OpRow.matches_of (encR_masked _ _ _ _ _ _) (by rfl)
theorem Laws.OwnRow.remu (rd rs1 rs2 : RegIdx) : Laws.OwnRow.Statement (.remu rd rs1 rs2) :=
  OpRow.matches_of (encR_masked _ _ _ _ _ _) (by rfl)
theorem Laws.OwnRow.fence (ignored : BitVec 25) : Laws.OwnRow.Statement (.fence ignored) :=
  OpRow.matches_of (ignored_masked _ _) (by rfl)
theorem Laws.OwnRow.ecall (ignored : BitVec 25) : Laws.OwnRow.Statement (.ecall ignored) :=
  OpRow.matches_of (ignored_masked _ _) (by rfl)

end Sys2Proof
end

