-- ==== Sys2Proof/Machine/Boot.lean ====
section
/-! DEFINITION. How a run starts (spec/70_reset_and_hazards.md R240, R241): the image load of spec/20_memory.md R50
with its launch preconditions, the boot sequence for every value of the open parameters, and the host's reading of
an image file under either byte order (R51). -/

namespace Sys2Proof.Machine

/-- R50: word k of the image is stored at BASE_ADDR + 4k. -/
def Memory.loadImage (m : Memory) (base : Word) : List Word → Memory
  | [] => m
  | w :: ws => Memory.loadImage (m.storeWord base w) (base + 4) ws

/-- The register file of R33: x0 = 0, x2 = SP_INIT, every other register REG_INIT. -/
def bootRegs (spInit : Word) : Vector Word 32 :=
  (Vector.replicate 32 Config.regInit |>.set 0 0#32).set 2 spInit

/-- The state before the first step (R33, R241): the run state is `running` if the byte at PC_INIT = BASE_ADDR is
mapped, else `terminated ranOffEnd` (D39). -/
def boot (cfg : BootConfig) (image : List Word) : State :=
  let mem := Memory.loadImage [] cfg.baseAddr image
  { regs := bootRegs cfg.spInit, pc := cfg.baseAddr, mem := mem,
    run := if mem.mapped cfg.baseAddr then .running else .terminated .ranOffEnd,
    console := [], diags := [] }

/-- A launch, refused where it breaks a precondition of R50. -/
def launch (cfg : BootConfig) (image : List Word) : Host.Outcome State Fault Refusal :=
  if cfg.baseAddr.toNat % 4 ≠ 0 then .refused (.misalignedBase cfg.baseAddr)
  else if 2 ^ 32 < cfg.baseAddr.toNat + 4 * image.length then .refused (.imageWraps cfg.baseAddr image.length)
  else .next (boot cfg image)

/-- One word of an image file under IMAGE_WIRE_ORDER (R51, D23). -/
def wireWord : WireOrder → Byte → Byte → Byte → Byte → Word
  | .littleEndian, b0, b1, b2, b3 => wordOfBytes b0 b1 b2 b3
  | .bigEndian, b0, b1, b2, b3 => wordOfBytes b3 b2 b1 b0

/-- The words of an image file; none where its last word is partial. -/
def imageWords (order : WireOrder) : List Byte → Option (List Word)
  | [] => some []
  | b0 :: b1 :: b2 :: b3 :: rest =>
    match imageWords order rest with
    | some ws => some (wireWord order b0 b1 b2 b3 :: ws)
    | none => none
  | _ :: _ => none

/-- A launch from an image file, refused where the file is no whole number of words (R50, D24). -/
def launchBytes (cfg : BootConfig) (order : WireOrder) (file : List Byte) : Host.Outcome State Fault Refusal :=
  match imageWords order file with
  | some image => launch cfg image
  | none => .refused (.partialWord file.length)

end Sys2Proof.Machine
end

