-- ==== Sys2Proof/Machine/HostView.lean ====
section
/-! DEFINITION. What the host reads (spec/70_reset_and_hazards.md R244, R245). Each accessor is read only; the host
never writes the state after the image load (R246; log entry 12). -/

namespace Sys2Proof.Machine

/-- contains(addr) of R245. -/
def State.contains (s : State) (a : Word) : Bool := s.mem.mapped a

/-- register_snapshot() of R245: x0 to x31, with x0 = 0 (R21). -/
def State.registerSnapshot (s : State) : Vector Word 32 := Vector.ofFn s.getReg

/-- read_memory_range(a, n) of R245 (D31): for each of the n bytes, its value or "unmapped". -/
def State.readMemoryRange (s : State) (a : Word) (n : Nat) : List (Option Byte) :=
  (List.range n).map fun k => s.mem.readByte (a + BitVec.ofNat 32 k)

/-- The text of a console event: the host's parameter CONSOLE_FORMAT (R8, R210, D18). -/
abbrev ConsoleFormat := ConsoleEvent → String

/-- The console as a host with the given format shows it. DESIGN CHOICE (log entry 11, unsafe): the texts of the events
are joined with nothing between, before or after them; the spec gives no separator and no newline
(spec/91_not_in_source.md), so a host that sets one makes it part of its format or shows another text. -/
def State.consoleText (format : ConsoleFormat) (s : State) : String :=
  s.console.foldl (fun text e => text ++ format e) ""

/-- The conventional rendering R210 names. PRESUMED (log entry 11): signed decimal of s(v) for PrintInt, and the
character with code v[7:0] for PrintChar. -/
def conventionalFormat : ConsoleFormat
  | .printInt v => toString v.toInt
  | .printChar v => String.singleton (Char.ofNat (byteOfWord v 0).toNat)

/-- The step result of R244, returned to the host and no part of the state (R29). -/
inductive StepResult where
  | continues
  | redirected (target : Word)
  | terminated (cause : TermCause)
  | fault (record : FaultRecord)
  deriving DecidableEq, Repr

/-- The target an instruction redirects to in a state, or none where it does not redirect (R25, R29). -/
def redirectTargetOf (i : Instr) (s : State) : Option Word :=
  match i with
  | .jal _ offset => some (s.jalTarget offset)
  | .jalr _ rs1 imm => some (s.jalrTarget rs1 imm)
  | .beq rs1 rs2 offset => if takenBeq s rs1 rs2 then some (s.branchTarget offset) else none
  | .bne rs1 rs2 offset => if takenBne s rs1 rs2 then some (s.branchTarget offset) else none
  | .blt rs1 rs2 offset => if takenBlt s rs1 rs2 then some (s.branchTarget offset) else none
  | .bge rs1 rs2 offset => if takenBge s rs1 rs2 then some (s.branchTarget offset) else none
  | .bltu rs1 rs2 offset => if takenBltu s rs1 rs2 then some (s.branchTarget offset) else none
  | .bgeu rs1 rs2 offset => if takenBgeu s rs1 rs2 then some (s.branchTarget offset) else none
  | .lui _ _ | .auipc _ _ => none
  | .lb _ _ _ | .lh _ _ _ | .lw _ _ _ | .lbu _ _ _ | .lhu _ _ _ => none
  | .sb _ _ _ | .sh _ _ _ | .sw _ _ _ => none
  | .addi _ _ _ | .slti _ _ _ | .sltiu _ _ _ | .xori _ _ _ | .ori _ _ _ | .andi _ _ _ => none
  | .slli _ _ _ | .srli _ _ _ | .srai _ _ _ => none
  | .add _ _ _ | .sub _ _ _ | .sll _ _ _ | .slt _ _ _ | .sltu _ _ _ => none
  | .xor _ _ _ | .srl _ _ _ | .sra _ _ _ | .or _ _ _ | .and _ _ _ => none
  | .mul _ _ _ | .mulh _ _ _ | .mulhsu _ _ _ | .mulhu _ _ _ => none
  | .div _ _ _ | .divu _ _ _ | .rem _ _ _ | .remu _ _ _ => none
  | .fence _ | .ecall _ => none

/-- Where the step from a running state redirects to: the pre-state's word decides it. -/
def State.redirectTarget (s : State) : Option Word :=
  match s.fetchWord with
  | some w =>
    match decodeWord w with
    | .instr i => redirectTargetOf i s
    | .unimplemented _ => none
  | none => none

/-- R244: the result of the step from `s`; none where `step` answers no next state. A redirect or continue whose new pc
is unmapped is `terminated ranOffEnd` (D32). -/
def State.stepResult (s : State) : Option StepResult :=
  match step s with
  | .next t =>
    match t.run with
    | .terminated c => some (.terminated c)
    | .faulted r => some (.fault r)
    | .running =>
      match s.redirectTarget with
      | some target => some (.redirected target)
      | none => some .continues
  | .fault _ => none
  | .refused _ => none

end Sys2Proof.Machine
end

