-- ==== Sys2Proof/Safety.lean ====
section
/-! DEFINITION. The terms statements use: what a step leaves alone and how it ends, the invariant that rules out states
no run reaches, runs from a launch, and when a run has ended (spec/70_reset_and_hazards.md R243). -/

namespace Sys2Proof.Machine

/-! ### What one instruction does -/

/-- Every byte of memory reads as before. -/
def SameBytes (s t : State) : Prop := ∀ a : Word, t.mem.readByte a = s.mem.readByte a

/-- Every register reads as before. -/
def SameRegs (s t : State) : Prop := ∀ r : RegIdx, t.getReg r = s.getReg r

/-- x[rd] reads `v` and every other register reads as before; x0 reads 0 whatever rd is (R21). -/
def WritesReg (s t : State) (rd : RegIdx) (v : Word) : Prop :=
  ∀ r : RegIdx, t.getReg r = if r = 0 then 0#32 else if r = rd then v else s.getReg r

/-- The step ends at `next` (R25, R243): the run goes on in the run state it had where the byte there is mapped in the
new memory, and has run off the end where it is not. -/
def EndsAt (s t : State) (next : Word) : Prop :=
  t.pc = next ∧ t.run = if t.mem.mapped next = true then s.run else .terminated .ranOffEnd

/-- The console and the diagnostics log are as before. -/
def Silent (s t : State) : Prop := t.console = s.console ∧ t.diags = s.diags

/-- The outcome of an instruction that writes x[rd] <- v, changes nothing else and goes on at pc + 4. -/
def RegisterResult (s : State) (rd : RegIdx) (v : Word) (o : Host.Outcome State Fault Refusal) : Prop :=
  ∃ t, o = .next t ∧ WritesReg s t rd v ∧ SameBytes s t ∧ Silent s t ∧ EndsAt s t (s.pc + 4#32)

/-- The outcome of an instruction that changes nothing and goes on at pc + 4. -/
def OnlyAdvances (s : State) (o : Host.Outcome State Fault Refusal) : Prop :=
  ∃ t, o = .next t ∧ SameRegs s t ∧ SameBytes s t ∧ Silent s t ∧ EndsAt s t (s.pc + 4#32)

/-- The diagnostics after a redirect to `target` (R223): a warning exactly when it is no multiple of 4. -/
def WarnsUnlessAligned (s t : State) (target : Word) : Prop :=
  t.diags = if target.toNat % 4 = 0 then s.diags else s.diags ++ [.alignmentWarning target]

/-- The outcome of a jump: x[rd] <- link, the pc redirected, nothing else changed. -/
def JumpResult (s : State) (rd : RegIdx) (link target : Word) (o : Host.Outcome State Fault Refusal) : Prop :=
  ∃ t, o = .next t ∧ WritesReg s t rd link ∧ SameBytes s t ∧ t.console = s.console ∧
    WarnsUnlessAligned s t target ∧ EndsAt s t target

/-- The outcome of a taken branch: the pc redirected, nothing else changed. -/
def RedirectsTo (s : State) (target : Word) (o : Host.Outcome State Fault Refusal) : Prop :=
  ∃ t, o = .next t ∧ SameRegs s t ∧ SameBytes s t ∧ t.console = s.console ∧
    WarnsUnlessAligned s t target ∧ EndsAt s t target

/-- The outcome of a branch (R102). -/
def BranchResult (s : State) (taken : Prop) (offset : BitVec 13) (o : Host.Outcome State Fault Refusal) : Prop :=
  (taken → RedirectsTo s (BitVec.ofInt 32 (s.pc.toNat + offset.toInt)) o) ∧ (¬taken → OnlyAdvances s o)

/-- The outcome of UnmappedAccess (R222): nothing changes but the run state, which holds the record. -/
def FaultResult (s : State) (record : FaultRecord) (o : Host.Outcome State Fault Refusal) : Prop :=
  ∃ t, o = .next t ∧ SameRegs s t ∧ SameBytes s t ∧ Silent s t ∧ t.pc = s.pc ∧ t.run = .faulted record

/-- The outcome of a store of the low `n` bytes of `v` at `ea` (R44): byte k of v at ea + k modulo 2^32, every other
byte as before, nothing else changed. -/
def StoreResult (s : State) (ea : Word) (n : Nat) (v : Word) (o : Host.Outcome State Fault Refusal) : Prop :=
  ∃ t, o = .next t ∧
    (∀ k < n, t.mem.readByte (ea + BitVec.ofNat 32 k) = some (BitVec.ofNat 8 (v.toNat / 256 ^ k))) ∧
    (∀ a : Word, (∀ k < n, a ≠ ea + BitVec.ofNat 32 k) → t.mem.readByte a = s.mem.readByte a) ∧
    SameRegs s t ∧ Silent s t ∧ EndsAt s t (s.pc + 4#32)

/-! ### The invariant -/

/-- A byte of the access the record describes is unmapped. -/
def FaultRecord.missesByte (r : FaultRecord) (m : Memory) : Bool :=
  (List.range r.size).any fun k => !m.mapped (r.addr + BitVec.ofNat 32 k)

/-- The run state agrees with the rest of the state: a running pc is mapped (R242); a run off the end has an unmapped
pc (R243); an ECALL exit has the a0 that asked for it, and a generic exit a1 = 0 (R204, R205); a fault record is
one of R221's two cases at this pc. -/
def State.runAgrees (s : State) : Prop :=
  match s.run with
  | .running => s.mem.mapped s.pc = true
  | .terminated .ranOffEnd => s.mem.mapped s.pc = false
  | .terminated .ecallExit => s.getReg regA0 = 10#32
  | .terminated (.ecallOtherExit a0) =>
    s.getReg regA0 = a0 ∧ s.getReg regA1 = 0#32 ∧ a0 ∉ [1#32, 4#32, 9#32, 10#32, 11#32]
  | .faulted r =>
    r.pc = s.pc ∧ s.mem.mapped s.pc = true ∧ r.missesByte s.mem = true ∧
      match r.kind with
      | .fetch => r.addr = s.pc ∧ r.size = 4
      | .load => r.size = 1 ∨ r.size = 2 ∨ r.size = 4

/-- What every reachable state satisfies: x0's slot holds 0 (R21), the memory is canonical, the pc is even (R26), and
the run state agrees with the rest. -/
structure State.Inv (s : State) : Prop where
  x0Zero    : s.regs.get 0 = 0#32
  memWf     : s.mem.wf
  pcEven    : s.pc.toNat % 2 = 0
  runAgrees : s.runAgrees

/-! ### Runs -/

/-- The states a run from `start` reaches. -/
inductive Reachable (start : State) : State → Prop where
  | atStart : Reachable start start
  | afterStep {s t : State} : Reachable start s → step s = .next t → Reachable start t

/-- A normal end of a run; `faulted` is none (R243). -/
def State.normalEnd (s : State) : Bool :=
  match s.run with
  | .terminated _ => true
  | .running | .faulted _ => false

end Sys2Proof.Machine
end

