-- ==== Sys2Proof/Certificates/Slice0/Obligations.lean ====
section
/-! DEFINITION. The statements for the provers. Each docstring names the rule of spec/ it formalises, or, where a clause
rests on a decision or inference the spec marks as its own, that decision. Values are written as exact arithmetic on the
spec's views (`toNat` is u(v), `toInt` is s(v)), not by the model's own functions. -/

open Sys2Proof
open Sys2Proof.Machine

/-! ### Encoding and decoding -/

/-- Words written out from R61 to R78 decode to what they stand for (spec/95_test_vectors.md sections 2.2 to 2.9). The
opcode and funct values are the spec's decision D26 (log entry 16). -/
def Obligations.SampleWordsDecode : Prop :=
  decodeWord 0x123452B7#32 = .instr (.lui 5 0x12345#20) ∧
  decodeWord 0x00001297#32 = .instr (.auipc 5 1#20) ∧
  decodeWord 0x008000EF#32 = .instr (.jal 1 8#21) ∧
  decodeWord 0xFE629CE3#32 = .instr (.bne 5 6 (-8#13)) ∧
  decodeWord 0xFFF30283#32 = .instr (.lb 5 6 (-1#12)) ∧
  decodeWord 0xFE732E23#32 = .instr (.sw 6 7 (-4#12)) ∧
  decodeWord 0x41F35293#32 = .instr (.srai 5 6 31#5) ∧
  decodeWord 0x406283B3#32 = .instr (.sub 7 5 6) ∧
  decodeWord 0x0262A3B3#32 = .instr (.mulhsu 7 5 6) ∧
  decodeWord 0x30200073#32 = .instr (.ecall 0x604000#25) ∧
  decodeWord 0x40001033#32 = .unimplemented 0x40001033#32

/-- R61: each field is the slice of the word at its bits, written as arithmetic. The places of rd, rs1 and rs2 are
supplied by the spec from general knowledge (log entry 16). -/
def Obligations.FieldsAreSlices : Prop :=
  ∀ w : Word,
    (opcodeOf w).toNat = w.toNat % 2 ^ 7 ∧ (rdOf w).val = w.toNat / 2 ^ 7 % 2 ^ 5 ∧
    (funct3Of w).toNat = w.toNat / 2 ^ 12 % 2 ^ 3 ∧ (rs1Of w).val = w.toNat / 2 ^ 15 % 2 ^ 5 ∧
    (rs2Of w).val = w.toNat / 2 ^ 20 % 2 ^ 5 ∧ (funct7Of w).toNat = w.toNat / 2 ^ 25

/-- The layouts of the five immediates and the shift amount (R63 to R68), bit by bit, with their ranges. -/
def Obligations.ImmediateLayouts : Prop :=
  ∀ w : Word,
    (∀ k < 32, (sext32 (fieldI w)).getLsbD k = w.getLsbD (if k < 11 then k + 20 else 31)) ∧
    (∀ k < 32, (sext32 (fieldS w)).getLsbD k = w.getLsbD (if k < 5 then k + 7 else if k < 11 then k + 20 else 31)) ∧
    (∀ k < 32, (sext32 (fieldB w)).getLsbD k =
      if k = 0 then false
      else w.getLsbD (if k < 5 then k + 7 else if k < 11 then k + 20 else if k = 11 then 7 else 31)) ∧
    (∀ k < 32, (immUpper (fieldU w)).getLsbD k = if k < 12 then false else w.getLsbD k) ∧
    (∀ k < 32, (sext32 (fieldJ w)).getLsbD k =
      if k = 0 then false
      else w.getLsbD (if k < 11 then k + 20 else if k = 11 then 20 else if k < 20 then k else 31)) ∧
    (shamtOf w).toNat = w.toNat / 2 ^ 20 % 2 ^ 5 ∧
    (-2048 ≤ (sext32 (fieldI w)).toInt ∧ (sext32 (fieldI w)).toInt ≤ 2047) ∧
    (-2048 ≤ (sext32 (fieldS w)).toInt ∧ (sext32 (fieldS w)).toInt ≤ 2047) ∧
    (-4096 ≤ (sext32 (fieldB w)).toInt ∧ (sext32 (fieldB w)).toInt ≤ 4094) ∧
    (-1048576 ≤ (sext32 (fieldJ w)).toInt ∧ (sext32 (fieldJ w)).toInt ≤ 1048574)

/-- Decoding the word of a well-formed instruction, of every family, gives the instruction back. -/
def Obligations.DecodeOfEncode : Prop :=
  ∀ i : Instr, i.wf = true → decodeWord (encode i) = .instr i

/-- A word that decodes to an instruction is that instruction's encoding, and the instruction is well formed: no bit of
an encoding is dropped, and no two words decode to one instruction. -/
def Obligations.EncodeOfDecode : Prop :=
  ∀ (w : Word) (i : Instr), decodeWord w = .instr i → i.wf = true ∧ encode i = w

/-- The decoder and spec/opcode_table.json agree (R80, marked derived there): of the 47 rows at most one matches a word;
a word decodes to an instruction exactly when a row matches, and then to one of that row; any other word takes the
unimplemented path with the word itself. The encoder agrees with the table too. -/
def Obligations.TableDecodesUnambiguously : Prop :=
  opcodeTable.length = 47 ∧ (∀ i : Instr, Laws.OwnRow.Statement i) ∧
  (∀ w : Word, ∀ r ∈ opcodeTable, ∀ r' ∈ opcodeTable, r.matches w = true → r'.matches w = true → r = r') ∧
  (∀ (w : Word) (i : Instr), decodeWord w = .instr i → i.row ∈ opcodeTable ∧ i.row.matches w = true) ∧
  (∀ w w' : Word, decodeWord w = .unimplemented w' → w' = w ∧ ∀ r ∈ opcodeTable, r.matches w = false)

/-- R79, case by case: which words take the unimplemented path. The second case is the spec's decision D12 with D13
(log entry 9). -/
def Obligations.UnimplementedWords : Prop :=
  ∀ w : Word, decodeWord w = .unimplemented w ↔
    w.toNat % 128 ∉ [0x37, 0x17, 0x6F, 0x67, 0x63, 0x03, 0x23, 0x13, 0x33, 0x0F, 0x73] ∨
    (w.toNat % 128 = 0x67 ∧ w.toNat / 2 ^ 12 % 8 ≠ 0) ∨
    (w.toNat % 128 = 0x63 ∧ w.toNat / 2 ^ 12 % 8 ∈ [2, 3]) ∨
    (w.toNat % 128 = 0x03 ∧ w.toNat / 2 ^ 12 % 8 ∈ [3, 6, 7]) ∨
    (w.toNat % 128 = 0x23 ∧ 3 ≤ w.toNat / 2 ^ 12 % 8) ∨
    (w.toNat % 128 = 0x13 ∧ w.toNat / 2 ^ 12 % 8 = 1 ∧ w.toNat / 2 ^ 25 ≠ 0) ∨
    (w.toNat % 128 = 0x13 ∧ w.toNat / 2 ^ 12 % 8 = 5 ∧ w.toNat / 2 ^ 25 ∉ [0x00, 0x20]) ∨
    (w.toNat % 128 = 0x33 ∧ w.toNat / 2 ^ 25 ∉ [0x00, 0x20, 0x01]) ∨
    (w.toNat % 128 = 0x33 ∧ w.toNat / 2 ^ 25 = 0x20 ∧ w.toNat / 2 ^ 12 % 8 ∉ [0, 5])

/-! ### Memory -/

/-- R43: a half-word or word reads as its bytes, lowest address least significant, and is unreadable as a whole where
one byte is unmapped; a byte address past 0xFFFFFFFF wraps (the spec's decision D6, log entry 17). -/
def Obligations.MemoryReads : Prop :=
  ∀ (m : Memory) (a : Word),
    (∀ b0 b1 : Byte, m.readByte a = some b0 → m.readByte (a + 1#32) = some b1 →
      m.readHalf a = some (BitVec.ofNat 16 (b0.toNat + 2 ^ 8 * b1.toNat))) ∧
    (m.readByte a = none ∨ m.readByte (a + 1#32) = none → m.readHalf a = none) ∧
    (∀ b0 b1 b2 b3 : Byte, m.readByte a = some b0 → m.readByte (a + 1#32) = some b1 →
      m.readByte (a + 2#32) = some b2 → m.readByte (a + 3#32) = some b3 →
      m.readWord a =
        some (BitVec.ofNat 32 (b0.toNat + 2 ^ 8 * b1.toNat + 2 ^ 16 * b2.toNat + 2 ^ 24 * b3.toNat))) ∧
    (m.readByte a = none ∨ m.readByte (a + 1#32) = none ∨ m.readByte (a + 2#32) = none ∨
      m.readByte (a + 3#32) = none → m.readWord a = none)

/-- R56: a store and a load of the same width at the same address give the value, truncated to the width. -/
def Obligations.StoreThenLoad : Prop :=
  ∀ (m : Memory) (a v : Word),
    (m.storeWord a v).readWord a = some v ∧
    (m.storeHalf a v).readHalf a = some (BitVec.ofNat 16 v.toNat) ∧
    (m.storeByte a v).readByte a = some (BitVec.ofNat 8 v.toNat)

/-- R45, its derived part: after a word store at a, the half-word at a + 2 is bits 31:16 and the byte at a + k bits
8k+7:8k. -/
def Obligations.MixedWidthAccess : Prop :=
  ∀ (m : Memory) (a v : Word),
    (m.storeWord a v).readHalf (a + 2#32) = some (BitVec.ofNat 16 (v.toNat / 2 ^ 16)) ∧
    ∀ k < 4, (m.storeWord a v).readByte (a + BitVec.ofNat 32 k) = some (BitVec.ofNat 8 (v.toNat / 2 ^ (8 * k)))

/-- Equal reads are equal memories: the canonical form has one list for one map from addresses to bytes. -/
def Obligations.CanonicalMemoryIsUnique : Prop :=
  ∀ m m' : Memory, m.wf → m'.wf → (∀ a : Word, m.readByte a = m'.readByte a) → m = m'

/-- R41: no step unmaps a byte. -/
def Obligations.StepsNeverUnmap : Prop :=
  ∀ (s t : State) (a : Word), step s = .next t → s.mem.mapped a = true → t.mem.mapped a = true

/-- Only a store changes memory: an instruction other than SB, SH and SW leaves every byte as it was (R41, R48). -/
def Obligations.OnlyStoresChangeMemory : Prop :=
  ∀ (i : Instr) (s t : State), exec i s = .next t →
    (∃ a : Word, t.mem.readByte a ≠ s.mem.readByte a) →
      ∃ (rs1 rs2 : RegIdx) (imm : BitVec 12), i = .sb rs1 rs2 imm ∨ i = .sh rs1 rs2 imm ∨ i = .sw rs1 rs2 imm

/-! ### Launch and reset -/

/-- The image load of R50: after a launch that breaks no precondition, word k of the image reads at BASE_ADDR + 4k and
every byte outside the image is unmapped (D27). -/
def Obligations.LaunchLoadsImage : Prop :=
  ∀ (cfg : BootConfig) (image : List Word), cfg.baseAddr.toNat % 4 = 0 →
    cfg.baseAddr.toNat + 4 * image.length ≤ 2 ^ 32 →
      ∃ s, launch cfg image = .next s ∧
        (∀ (k : Nat) (hk : k < image.length),
          s.mem.readWord (cfg.baseAddr + BitVec.ofNat 32 (4 * k)) = some image[k]) ∧
        (∀ a : Word, a.toNat < cfg.baseAddr.toNat ∨ cfg.baseAddr.toNat + 4 * image.length ≤ a.toNat →
          s.mem.readByte a = none)

/-- The state before the first step (R33), for every value of the open parameters. The register values other than x0's
and the first fetch address are the spec's decisions D1, D2 and D3, the run state of an empty image D39. -/
def Obligations.LaunchState : Prop :=
  ∀ (cfg : BootConfig) (image : List Word), cfg.baseAddr.toNat % 4 = 0 →
    cfg.baseAddr.toNat + 4 * image.length ≤ 2 ^ 32 →
      ∃ s, launch cfg image = .next s ∧
        (∀ r : RegIdx, s.getReg r = if r = 2 then cfg.spInit else 0#32) ∧
        s.pc = cfg.baseAddr ∧ s.console = [] ∧ s.diags = [] ∧
        s.run = if image = [] then .terminated .ranOffEnd else .running

/-- The launches R50 refuses (decisions D24 and D25), each by name, and a file whose last word is partial. -/
def Obligations.BadLaunchesAreRefused : Prop :=
  (∀ (cfg : BootConfig) (image : List Word), cfg.baseAddr.toNat % 4 ≠ 0 →
    launch cfg image = .refused (.misalignedBase cfg.baseAddr)) ∧
  (∀ (cfg : BootConfig) (image : List Word), cfg.baseAddr.toNat % 4 = 0 →
    2 ^ 32 < cfg.baseAddr.toNat + 4 * image.length →
    launch cfg image = .refused (.imageWraps cfg.baseAddr image.length)) ∧
  (∀ (cfg : BootConfig) (order : WireOrder) (file : List Byte), file.length % 4 ≠ 0 →
    launchBytes cfg order file = .refused (.partialWord file.length))

/-- What `State.reset` holds (R33 with no image). BASE_ADDR 0 and SP_INIT 0x8000 are the model's choices (log entries 1
and 2), the other registers' 0 the spec's D1 (log entry 3). -/
def Obligations.ResetValues : Prop :=
  State.reset = boot ⟨0x00000000#32, 0x00008000#32, false⟩ [] ∧
  (∀ r : RegIdx, State.reset.getReg r = if r = 2 then 0x00008000#32 else 0#32) ∧
  State.reset.pc = 0x00000000#32 ∧ (∀ a : Word, State.reset.mem.readByte a = none) ∧
  State.reset.run = .terminated .ranOffEnd ∧ State.reset.console = [] ∧ State.reset.diags = []

/-! ### The step -/

/-- R242: where the word at a running state's pc is readable and decodes to an instruction, step is exec of it at that
state; where it decodes to none, step is the unimplemented path. -/
def Obligations.StepRunsDecodedWord : Prop :=
  ∀ (s : State) (w : Word), s.run = .running → s.mem.readWord s.pc = some w →
    (∀ i : Instr, decodeWord w = .instr i → step s = exec i s) ∧
    (decodeWord w = .unimplemented w → step s = execUnimplemented w s)

/-- R221 and R222 for a fetch: a running state whose pc is mapped while one of the three bytes after it is not takes
UnmappedAccess of kind Fetch and changes nothing else. That such a fetch faults is the spec's decision D9, the record
and the run state D10. -/
def Obligations.PartialFetchFaults : Prop :=
  ∀ s : State, s.run = .running → s.mem.mapped s.pc = true →
    (s.mem.mapped (s.pc + 1#32) = false ∨ s.mem.mapped (s.pc + 2#32) = false ∨
      s.mem.mapped (s.pc + 3#32) = false) →
    FaultResult s ⟨.fetch, s.pc, 4, s.pc⟩ (step s)

/-- R28: no step is taken in `Terminated` or `Faulted`, and one is taken in every running state that agrees with R242
(the pc mapped): stepping goes on exactly while running. The refusal is the model's (log entry 6). -/
def Obligations.StepsExactlyWhileRunning : Prop :=
  ∀ s : State, s.Inv →
    (s.run = .running → ∃ t, step s = .next t) ∧ (s.run ≠ .running → step s = .refused (.notRunning s.run))

/-- R206: an environment call is the only source of termination besides running off mapped memory: a step that ends the
run for another cause ran a word of opcode 0x73. A fault ends stepping too, but is no termination. -/
def Obligations.OnlyEcallTerminates : Prop :=
  ∀ s t : State, step s = .next t →
    (∀ c : TermCause, t.run = .terminated c → c ≠ .ranOffEnd →
      ∃ w : Word, s.mem.readWord s.pc = some w ∧ w.toNat % 128 = 0x73) ∧
    (∀ r : FaultRecord, t.run = .faulted r → t.normalEnd = false ∧ ∀ u : State, step t ≠ .next u)

/-- Running off the end (R243): a step that leaves the run terminated as `RanOffEnd` has an unmapped byte at its new
pc, and one that leaves it running a mapped byte. -/
def Obligations.EndOfRunIsUnmappedPc : Prop :=
  ∀ s t : State, step s = .next t →
    (t.run = .terminated .ranOffEnd → t.mem.readByte t.pc = none) ∧
    (t.run = .running → ∃ b, t.mem.readByte t.pc = some b)

/-- R25: the next pc of a step that neither faults nor terminates by ECALL is the pc plus 4, unless the word is a jump
or branch; a faulting or terminating ECALL step keeps the pc (the latter the spec's decision D16). -/
def Obligations.PcAdvance : Prop :=
  ∀ s t : State, step s = .next t →
    ((∃ r, t.run = .faulted r) → t.pc = s.pc) ∧
    ((∃ c, t.run = .terminated c ∧ c ≠ .ranOffEnd) → t.pc = s.pc) ∧
    (∀ w : Word, s.mem.readWord s.pc = some w → w.toNat % 128 ∉ [0x6F, 0x67, 0x63] →
      (t.run = .running ∨ t.run = .terminated .ranOffEnd) → t.pc = s.pc + 4#32)

/-- R54: a store to the next word is what the next fetch reads, with no fence (marked derived there). -/
def Obligations.StoreIsSeenByNextFetch : Prop :=
  ∀ (s : State) (rs1 rs2 : RegIdx) (imm : BitVec 12), s.run = .running →
    s.getReg rs1 + imm.signExtend 32 = s.pc + 4#32 →
      ∃ t, exec (.sw rs1 rs2 imm) s = .next t ∧ t.run = .running ∧ t.pc = s.pc + 4#32 ∧
        t.mem.readWord t.pc = some (s.getReg rs2)

/-- The step result of R244: `redirected` names the new pc, and only jumps and taken branches give it. -/
def Obligations.StepResultNamesNextPc : Prop :=
  ∀ s t : State, step s = .next t → t.run = .running →
    (∀ target : Word, s.stepResult = some (.redirected target) → t.pc = target) ∧
    (s.stepResult = some .continues → t.pc = s.pc + 4#32) ∧
    (s.stepResult = some .continues ∨ ∃ target : Word, s.stepResult = some (.redirected target))

/-! ### Upper immediates (41) -/

/-- R90 and R91: LUI gives the 20-bit field above twelve zero bits, AUIPC adds that to its own pc, modulo 2^32. -/
def Obligations.UpperImmediateResults : Prop :=
  ∀ (s : State) (rd : RegIdx) (imm : BitVec 20),
    RegisterResult s rd (BitVec.ofNat 32 (imm.toNat * 2 ^ 12)) (exec (.lui rd imm) s) ∧
    RegisterResult s rd (BitVec.ofNat 32 (s.pc.toNat + imm.toNat * 2 ^ 12)) (exec (.auipc rd imm) s)

/-! ### Control transfer (42) -/

/-- R100: link and target both from the JAL's own pc; a target that is no multiple of 4 warns and is taken (R110). -/
def Obligations.JalResult : Prop :=
  ∀ (s : State) (rd : RegIdx) (offset : BitVec 21),
    JumpResult s rd (BitVec.ofNat 32 (s.pc.toNat + 4)) (BitVec.ofInt 32 (s.pc.toNat + offset.toInt))
      (exec (.jal rd offset) s)

/-- R101: the target is x[rs1] + immI with bit 0 cleared, from x[rs1] at the start of the step also where rd = rs1 (the
spec's decision D5, log entry 17). -/
def Obligations.JalrResult : Prop :=
  ∀ (s : State) (rd rs1 : RegIdx) (imm : BitVec 12),
    JumpResult s rd (BitVec.ofNat 32 (s.pc.toNat + 4))
      (BitVec.ofInt 32 (2 * (((s.getReg rs1).toNat + imm.toInt) / 2))) (exec (.jalr rd rs1 imm) s)

/-- R102 to R104: BEQ and BNE. -/
def Obligations.EqualityBranches : Prop :=
  ∀ (s : State) (rs1 rs2 : RegIdx) (offset : BitVec 13),
    BranchResult s ((s.getReg rs1).toNat = (s.getReg rs2).toNat) offset (exec (.beq rs1 rs2 offset) s) ∧
    BranchResult s ((s.getReg rs1).toNat ≠ (s.getReg rs2).toNat) offset (exec (.bne rs1 rs2 offset) s)

/-- R102, R105 to R108: BLT and BGE compare as signed, BLTU and BGEU as unsigned. -/
def Obligations.OrderBranches : Prop :=
  ∀ (s : State) (rs1 rs2 : RegIdx) (offset : BitVec 13),
    BranchResult s ((s.getReg rs1).toInt < (s.getReg rs2).toInt) offset (exec (.blt rs1 rs2 offset) s) ∧
    BranchResult s ((s.getReg rs1).toInt ≥ (s.getReg rs2).toInt) offset (exec (.bge rs1 rs2 offset) s) ∧
    BranchResult s ((s.getReg rs1).toNat < (s.getReg rs2).toNat) offset (exec (.bltu rs1 rs2 offset) s) ∧
    BranchResult s ((s.getReg rs1).toNat ≥ (s.getReg rs2).toNat) offset (exec (.bgeu rs1 rs2 offset) s)

/-! ### Loads and stores (43) -/

/-- R121 and R124: a mapped byte is sign-extended by LB and zero-extended by LBU. -/
def Obligations.ByteLoads : Prop :=
  ∀ (s : State) (rd rs1 : RegIdx) (imm : BitVec 12) (b : Byte),
    s.mem.readByte (BitVec.ofInt 32 ((s.getReg rs1).toNat + imm.toInt)) = some b →
      RegisterResult s rd (BitVec.ofInt 32 b.toInt) (exec (.lb rd rs1 imm) s) ∧
      RegisterResult s rd (BitVec.ofNat 32 b.toNat) (exec (.lbu rd rs1 imm) s)

/-- R122 and R125: a half-word from two mapped bytes, the higher address more significant, is sign-extended by LH and
zero-extended by LHU; the second address wraps at 2^32 (D6). -/
def Obligations.HalfLoads : Prop :=
  ∀ (s : State) (rd rs1 : RegIdx) (imm : BitVec 12) (b0 b1 : Byte),
    s.mem.readByte (BitVec.ofInt 32 ((s.getReg rs1).toNat + imm.toInt)) = some b0 →
    s.mem.readByte (BitVec.ofInt 32 ((s.getReg rs1).toNat + imm.toInt + 1)) = some b1 →
      RegisterResult s rd (BitVec.ofInt 32 (b0.toNat + 2 ^ 8 * b1.toInt)) (exec (.lh rd rs1 imm) s) ∧
      RegisterResult s rd (BitVec.ofNat 32 (b0.toNat + 2 ^ 8 * b1.toNat)) (exec (.lhu rd rs1 imm) s)

/-- R123: a word from four mapped bytes, at any alignment (D7); the addresses wrap at 2^32 (D6). -/
def Obligations.WordLoads : Prop :=
  ∀ (s : State) (rd rs1 : RegIdx) (imm : BitVec 12) (b0 b1 b2 b3 : Byte),
    s.mem.readByte (BitVec.ofInt 32 ((s.getReg rs1).toNat + imm.toInt)) = some b0 →
    s.mem.readByte (BitVec.ofInt 32 ((s.getReg rs1).toNat + imm.toInt + 1)) = some b1 →
    s.mem.readByte (BitVec.ofInt 32 ((s.getReg rs1).toNat + imm.toInt + 2)) = some b2 →
    s.mem.readByte (BitVec.ofInt 32 ((s.getReg rs1).toNat + imm.toInt + 3)) = some b3 →
      RegisterResult s rd
        (BitVec.ofNat 32 (b0.toNat + 2 ^ 8 * b1.toNat + 2 ^ 16 * b2.toNat + 2 ^ 24 * b3.toNat))
        (exec (.lw rd rs1 imm) s)

/-- R222 for loads, rd = 0 included (R130, decision D34): a load one of whose bytes is unmapped takes UnmappedAccess and
changes nothing else. The record and the run state are the spec's decision D10 (log entry 5). -/
def Obligations.UnmappedLoadsFault : Prop :=
  ∀ (s : State) (rd rs1 : RegIdx) (imm : BitVec 12) (ea : Word),
    ea = BitVec.ofInt 32 ((s.getReg rs1).toNat + imm.toInt) →
      (s.mem.readByte ea = none →
        FaultResult s ⟨.load, ea, 1, s.pc⟩ (exec (.lb rd rs1 imm) s) ∧
        FaultResult s ⟨.load, ea, 1, s.pc⟩ (exec (.lbu rd rs1 imm) s)) ∧
      ((∃ k < 2, s.mem.readByte (ea + BitVec.ofNat 32 k) = none) →
        FaultResult s ⟨.load, ea, 2, s.pc⟩ (exec (.lh rd rs1 imm) s) ∧
        FaultResult s ⟨.load, ea, 2, s.pc⟩ (exec (.lhu rd rs1 imm) s)) ∧
      ((∃ k < 4, s.mem.readByte (ea + BitVec.ofNat 32 k) = none) →
        FaultResult s ⟨.load, ea, 4, s.pc⟩ (exec (.lw rd rs1 imm) s))

/-- R126: SB stores the low byte of x[rs2] at x[rs1] + immS, mapped or not, and nothing else changes. -/
def Obligations.ByteStores : Prop :=
  ∀ (s : State) (rs1 rs2 : RegIdx) (imm : BitVec 12),
    StoreResult s (BitVec.ofInt 32 ((s.getReg rs1).toNat + imm.toInt)) 1 (s.getReg rs2) (exec (.sb rs1 rs2 imm) s)

/-- R127 and R128: SH and SW store the low 2 and 4 bytes of x[rs2], little-endian, at any alignment (D7), the addresses
wrapping at 2^32 (D6). -/
def Obligations.HalfAndWordStores : Prop :=
  ∀ (s : State) (rs1 rs2 : RegIdx) (imm : BitVec 12),
    StoreResult s (BitVec.ofInt 32 ((s.getReg rs1).toNat + imm.toInt)) 2 (s.getReg rs2) (exec (.sh rs1 rs2 imm) s) ∧
    StoreResult s (BitVec.ofInt 32 ((s.getReg rs1).toNat + imm.toInt)) 4 (s.getReg rs2) (exec (.sw rs1 rs2 imm) s)

/-! ### Integer register-immediate (44) -/

/-- R140 and R141: the sum wraps silently modulo 2^32; the comparison is signed and gives exactly 0 or 1. -/
def Obligations.AddiSltiResults : Prop :=
  ∀ (s : State) (rd rs1 : RegIdx) (imm : BitVec 12),
    RegisterResult s rd (BitVec.ofInt 32 ((s.getReg rs1).toInt + imm.toInt)) (exec (.addi rd rs1 imm) s) ∧
    RegisterResult s rd (if (s.getReg rs1).toInt < imm.toInt then 1#32 else 0#32) (exec (.slti rd rs1 imm) s)

/-- R142: the bound is the unsigned view of the sign-extended immediate, the spec's decision D11 on conflict C2. -/
def Obligations.SltiuResult : Prop :=
  ∀ (s : State) (rd rs1 : RegIdx) (imm : BitVec 12),
    RegisterResult s rd (if ((s.getReg rs1).toNat : Int) < imm.toInt % 2 ^ 32 then 1#32 else 0#32)
      (exec (.sltiu rd rs1 imm) s)

/-- R143 to R145, bit by bit: bit k of the sign-extended immediate is bit min(k, 11) of its field. -/
def Obligations.BitwiseImmediates : Prop :=
  ∀ (s : State) (rd rs1 : RegIdx) (imm : BitVec 12),
    (∃ v, RegisterResult s rd v (exec (.xori rd rs1 imm) s) ∧
      ∀ k < 32, v.getLsbD k = ((s.getReg rs1).getLsbD k ^^ imm.getLsbD (min k 11))) ∧
    (∃ v, RegisterResult s rd v (exec (.ori rd rs1 imm) s) ∧
      ∀ k < 32, v.getLsbD k = ((s.getReg rs1).getLsbD k || imm.getLsbD (min k 11))) ∧
    (∃ v, RegisterResult s rd v (exec (.andi rd rs1 imm) s) ∧
      ∀ k < 32, v.getLsbD k = ((s.getReg rs1).getLsbD k && imm.getLsbD (min k 11)))

/-- R146 (its effect; which words are SLLI is R75), R147 and R148: the left shift multiplies by 2^shamt modulo 2^32, the logical right shift divides u(x), the
arithmetic one divides s(x), rounding down. -/
def Obligations.ImmediateShifts : Prop :=
  ∀ (s : State) (rd rs1 : RegIdx) (shamt : BitVec 5),
    RegisterResult s rd (BitVec.ofNat 32 ((s.getReg rs1).toNat * 2 ^ shamt.toNat)) (exec (.slli rd rs1 shamt) s) ∧
    RegisterResult s rd (BitVec.ofNat 32 ((s.getReg rs1).toNat / 2 ^ shamt.toNat)) (exec (.srli rd rs1 shamt) s) ∧
    RegisterResult s rd (BitVec.ofInt 32 ((s.getReg rs1).toInt / 2 ^ shamt.toNat)) (exec (.srai rd rs1 shamt) s)

/-! ### Integer register-register (45) -/

/-- R160 and R161. -/
def Obligations.AddSubResults : Prop :=
  ∀ (s : State) (rd rs1 rs2 : RegIdx),
    RegisterResult s rd (BitVec.ofNat 32 ((s.getReg rs1).toNat + (s.getReg rs2).toNat)) (exec (.add rd rs1 rs2) s) ∧
    RegisterResult s rd (BitVec.ofInt 32 ((s.getReg rs1).toNat - (s.getReg rs2).toNat)) (exec (.sub rd rs1 rs2) s)

/-- R163 and R164, with SLTU's law for x0: it gives 1 exactly where x[rs2] is not 0. -/
def Obligations.SetLessThanResults : Prop :=
  ∀ (s : State) (rd rs1 rs2 : RegIdx),
    RegisterResult s rd (if (s.getReg rs1).toInt < (s.getReg rs2).toInt then 1#32 else 0#32)
      (exec (.slt rd rs1 rs2) s) ∧
    RegisterResult s rd (if (s.getReg rs1).toNat < (s.getReg rs2).toNat then 1#32 else 0#32)
      (exec (.sltu rd rs1 rs2) s) ∧
    RegisterResult s rd (if s.getReg rs2 = 0#32 then 0#32 else 1#32) (exec (.sltu rd 0 rs2) s)

/-- R165, R168 and R169, bit by bit. -/
def Obligations.BitwiseRegisters : Prop :=
  ∀ (s : State) (rd rs1 rs2 : RegIdx),
    (∃ v, RegisterResult s rd v (exec (.xor rd rs1 rs2) s) ∧
      ∀ k < 32, v.getLsbD k = ((s.getReg rs1).getLsbD k ^^ (s.getReg rs2).getLsbD k)) ∧
    (∃ v, RegisterResult s rd v (exec (.or rd rs1 rs2) s) ∧
      ∀ k < 32, v.getLsbD k = ((s.getReg rs1).getLsbD k || (s.getReg rs2).getLsbD k)) ∧
    (∃ v, RegisterResult s rd v (exec (.and rd rs1 rs2) s) ∧
      ∀ k < 32, v.getLsbD k = ((s.getReg rs1).getLsbD k && (s.getReg rs2).getLsbD k))

/-- R162, R166 and R167. The shift amount, x[rs2] modulo 32, is the spec's decision D20 (log entry 16). -/
def Obligations.RegisterShifts : Prop :=
  ∀ (s : State) (rd rs1 rs2 : RegIdx) (sh : Nat), sh = (s.getReg rs2).toNat % 32 →
    RegisterResult s rd (BitVec.ofNat 32 ((s.getReg rs1).toNat * 2 ^ sh)) (exec (.sll rd rs1 rs2) s) ∧
    RegisterResult s rd (BitVec.ofNat 32 ((s.getReg rs1).toNat / 2 ^ sh)) (exec (.srl rd rs1 rs2) s) ∧
    RegisterResult s rd (BitVec.ofInt 32 ((s.getReg rs1).toInt / 2 ^ sh)) (exec (.sra rd rs1 rs2) s)

/-! ### Multiply and divide (46) -/

/-- R180, R181 and R183: the low word of the signed product, and the high word of the signed and of the unsigned product,
as the product divided by 2^32 rounding down. R180's inference on the unsigned reading is `MulhsuAndUnsignedMulResults`'s. -/
def Obligations.MultiplyResults : Prop :=
  ∀ (s : State) (rd rs1 rs2 : RegIdx),
    RegisterResult s rd (BitVec.ofInt 32 ((s.getReg rs1).toInt * (s.getReg rs2).toInt)) (exec (.mul rd rs1 rs2) s) ∧
    RegisterResult s rd (BitVec.ofInt 32 ((s.getReg rs1).toInt * (s.getReg rs2).toInt / 2 ^ 32))
      (exec (.mulh rd rs1 rs2) s) ∧
    RegisterResult s rd (BitVec.ofNat 32 ((s.getReg rs1).toNat * (s.getReg rs2).toNat / 2 ^ 32))
      (exec (.mulhu rd rs1 rs2) s)

/-- R182: rs1 is the signed operand, the spec's decision D22 (log entry 16). And the inference R180 marks derived: MUL's
low word is that of the product read as unsigned too. -/
def Obligations.MulhsuAndUnsignedMulResults : Prop :=
  ∀ (s : State) (rd rs1 rs2 : RegIdx),
    RegisterResult s rd (BitVec.ofInt 32 ((s.getReg rs1).toInt * (s.getReg rs2).toNat / 2 ^ 32))
      (exec (.mulhsu rd rs1 rs2) s) ∧
    RegisterResult s rd (BitVec.ofNat 32 ((s.getReg rs1).toNat * (s.getReg rs2).toNat)) (exec (.mul rd rs1 rs2) s)

/-- R225: by zero, DIV and DIVU give all ones and REM and REMU the dividend, with no fault and no diagnostic. -/
def Obligations.DivideByZeroResults : Prop :=
  ∀ (s : State) (rd rs1 rs2 : RegIdx), (s.getReg rs2).toNat = 0 →
    RegisterResult s rd (-1#32) (exec (.div rd rs1 rs2) s) ∧
    RegisterResult s rd (-1#32) (exec (.divu rd rs1 rs2) s) ∧
    RegisterResult s rd (s.getReg rs1) (exec (.rem rd rs1 rs2) s) ∧
    RegisterResult s rd (s.getReg rs1) (exec (.remu rd rs1 rs2) s)

/-- R184 and R186 where the divisor is not 0: the quotient rounds toward zero and the remainder takes the dividend's
sign, which on -2^31 by -1 gives 0x80000000 and 0 modulo 2^32. All of this is the spec's decision D21 (log entry 16). -/
def Obligations.SignedDivision : Prop :=
  ∀ (s : State) (rd rs1 rs2 : RegIdx) (a b : Int), a = (s.getReg rs1).toInt → b = (s.getReg rs2).toInt → b ≠ 0 →
    RegisterResult s rd (BitVec.ofInt 32 (a.sign * b.sign * (a.natAbs / b.natAbs : Nat))) (exec (.div rd rs1 rs2) s) ∧
    RegisterResult s rd (BitVec.ofInt 32 (a.sign * (a.natAbs % b.natAbs : Nat))) (exec (.rem rd rs1 rs2) s) ∧
    (a = -2 ^ 31 → b = -1 →
      RegisterResult s rd 0x80000000#32 (exec (.div rd rs1 rs2) s) ∧
      RegisterResult s rd 0#32 (exec (.rem rd rs1 rs2) s))

/-- R185 and R187: by zero all ones and the dividend, else the quotient and remainder of the division algorithm. -/
def Obligations.UnsignedDivision : Prop :=
  ∀ (s : State) (rd rs1 rs2 : RegIdx),
    ((s.getReg rs2).toNat = 0 →
      RegisterResult s rd 0xFFFFFFFF#32 (exec (.divu rd rs1 rs2) s) ∧
      RegisterResult s rd (s.getReg rs1) (exec (.remu rd rs1 rs2) s)) ∧
    ((s.getReg rs2).toNat ≠ 0 →
      ∃ q r : Nat, (s.getReg rs1).toNat = q * (s.getReg rs2).toNat + r ∧ r < (s.getReg rs2).toNat ∧
        RegisterResult s rd (BitVec.ofNat 32 q) (exec (.divu rd rs1 rs2) s) ∧
        RegisterResult s rd (BitVec.ofNat 32 r) (exec (.remu rd rs1 rs2) s))

/-- R186's identity (marked derived there): quotient times divisor plus remainder is the dividend modulo 2^32, for every
operand pair, zero and overflow included, signed and unsigned. -/
def Obligations.DivisionIdentity : Prop :=
  ∀ (s t u : State) (rd rs1 rs2 : RegIdx), rd ≠ 0 →
    (exec (.div rd rs1 rs2) s = .next t → exec (.rem rd rs1 rs2) s = .next u →
      t.getReg rd * s.getReg rs2 + u.getReg rd = s.getReg rs1) ∧
    (exec (.divu rd rs1 rs2) s = .next t → exec (.remu rd rs1 rs2) s = .next u →
      t.getReg rd * s.getReg rs2 + u.getReg rd = s.getReg rs1)

/-! ### Environment call, fence, unimplemented words (47) -/

/-- R201 to R203: services 1 and 11 append a1, all 32 bits, to the console; 4 and 9 only advance the pc. That a1 is x11
is decision D33, the pc's advance D16, that 4 and 9 change nothing D19, that all 32 bits of a0 count D38 (log entries 16,
17); that a word of opcode 0x73 other than 0x00000073, any other `ignored`, is an ECALL is decision D14 (log entry 8). -/
def Obligations.ContinuingServices : Prop :=
  ∀ (s : State) (ignored : BitVec 25),
    (s.getReg 10 = 1#32 → ∃ t, exec (.ecall ignored) s = .next t ∧ SameRegs s t ∧ SameBytes s t ∧
      t.console = s.console ++ [.printInt (s.getReg 11)] ∧ t.diags = s.diags ∧ EndsAt s t (s.pc + 4#32)) ∧
    (s.getReg 10 = 11#32 → ∃ t, exec (.ecall ignored) s = .next t ∧ SameRegs s t ∧ SameBytes s t ∧
      t.console = s.console ++ [.printChar (s.getReg 11)] ∧ t.diags = s.diags ∧ EndsAt s t (s.pc + 4#32)) ∧
    (s.getReg 10 = 4#32 ∨ s.getReg 10 = 9#32 → OnlyAdvances s (exec (.ecall ignored) s))

/-- R204 and R205: service 10 ends the run and changes nothing else; any other value outside the table also writes 0 to
x11 and is kept in the cause. That the pc stays is decision D16, the cause D17, that all 32 bits of a0 count D38, that a1
is x11 D33 (log entries 16, 17); that a word of opcode 0x73 other than 0x00000073, any other `ignored`, is an ECALL is
decision D14 (log entry 8). -/
def Obligations.ExitServices : Prop :=
  ∀ (s : State) (ignored : BitVec 25),
    (s.getReg 10 = 10#32 → ∃ t, exec (.ecall ignored) s = .next t ∧ SameRegs s t ∧ SameBytes s t ∧ Silent s t ∧
      t.pc = s.pc ∧ t.run = .terminated .ecallExit) ∧
    ((s.getReg 10).toNat ∉ [1, 4, 9, 10, 11] → ∃ t, exec (.ecall ignored) s = .next t ∧ WritesReg s t 11 0#32 ∧
      SameBytes s t ∧ Silent s t ∧ t.pc = s.pc ∧ t.run = .terminated (.ecallOtherExit (s.getReg 10)))

/-- R207: every word of opcode 0x73 does what the standard ECALL word does, the decided value of SYSTEM_SUBDECODE (D14,
log entry 8); under the alternative csr_noop the words with funct3 other than 000 only advance the pc. -/
def Obligations.SystemWords : Prop :=
  (∀ (s : State) (w : Word), w.toNat % 128 = 0x73 → runWord w s = runWord 0x00000073#32 s) ∧
  (∀ (s : State) (w : Word), w.toNat % 128 = 0x73 → w.toNat / 2 ^ 12 % 8 = 0 →
    execSystemUnder .csrNoop (ignoredOf w) s = runWord w s) ∧
  (∀ (s : State) (w : Word), w.toNat % 128 = 0x73 → w.toNat / 2 ^ 12 % 8 ≠ 0 →
    OnlyAdvances s (execSystemUnder .csrNoop (ignoredOf w) s))

/-- R208: a fence only advances the pc. -/
def Obligations.FenceResult : Prop :=
  ∀ (s : State) (ignored : BitVec 25), OnlyAdvances s (exec (.fence ignored) s)

/-- R209: a word of the unimplemented path only advances the pc and logs itself; that the log entry is the whole word is
decision D37 (log entry 10). -/
def Obligations.UnimplementedWordResult : Prop :=
  ∀ (s : State) (w : Word), decodeWord w = .unimplemented w →
    ∃ t, runWord w s = .next t ∧ SameRegs s t ∧ SameBytes s t ∧ t.console = s.console ∧
      t.diags = s.diags ++ [.unimplementedOpcode w] ∧ EndsAt s t (s.pc + 4#32)

/-- R210: the console is append-only, and only a word of opcode 0x73 with a0 = 1 or 11 appends, one event a step. The form of
an event is decision D18 (log entry 11), that a1 is x11 D33, that all 32 bits of a0 count D38 (log entries 16, 17). -/
def Obligations.ConsoleIsAppendOnly : Prop :=
  ∀ s t : State, step s = .next t → t.console ≠ s.console →
    ∃ w : Word, s.mem.readWord s.pc = some w ∧ w.toNat % 128 = 0x73 ∧
      ((s.getReg 10 = 1#32 ∧ t.console = s.console ++ [.printInt (s.getReg 11)]) ∨
        (s.getReg 10 = 11#32 ∧ t.console = s.console ++ [.printChar (s.getReg 11)]))

/-! ### Whole-machine rules -/

/-- Every step keeps the invariant of Safety.lean: x0's slot is 0 (R21), memory is canonical, the pc is even (R26) and
the run state agrees with the rest of the state (R28, R221, R242, R243). -/
def Obligations.StepKeepsInv : Prop :=
  ∀ s t : State, s.Inv → step s = .next t → t.Inv

/-- The invariant holds at `State.reset` and after every launch that is not refused. -/
def Obligations.LaunchesMeetInv : Prop :=
  State.reset.Inv ∧
  ∀ (cfg : BootConfig) (image : List Word) (s : State), launch cfg image = .next s → s.Inv

/-- No run from a launch meets the model's own fault: in every state a run reaches, a step answers a next state, or the
run has ended and the step is refused (R28, R242, R243). -/
def Obligations.ReachableStatesNeverStick : Prop :=
  ∀ (cfg : BootConfig) (image : List Word) (start s : State), launch cfg image = .next start → Reachable start s →
    (∃ t, step s = .next t) ∨ (s.run ≠ .running ∧ step s = .refused (.notRunning s.run))

/-- R31: no rule reads the diagnostics log: a step from the same state with another log does the same, and appends the
same entries. -/
def Obligations.DiagnosticsAreNeverRead : Prop :=
  ∀ (s t : State) (log : List Diagnostic), step s = .next t →
    ∃ entries : List Diagnostic, t.diags = s.diags ++ entries ∧
      step { s with diags := log } = .next { t with diags := log ++ entries }
end

