-- ==== Sys2Proof/Laws/Memory.lean ====
section
/-! SUPPORT. Memory: a read after a write, that every operation keeps the canonical form, and that no operation unmaps
a byte (spec/20_memory.md R41, R43, R44). -/

namespace Sys2Proof.Machine

/-! ### lookup and insert -/

/-- Everything an insertion does to reads. -/
theorem Memory.lookup_insert (m : Memory) (k j : Nat) (v : Byte) :
    (m.insert k v).lookup j = if j = k then some v else m.lookup j := by
  induction m with
  | nil => simp only [Memory.insert, Memory.lookup, eq_comm]
  | cons c rest ih =>
    obtain ⟨a, b⟩ := c
    simp only [Memory.insert]
    split
    · simp only [Memory.lookup, eq_comm]
    · split
      · subst_vars
        simp only [Memory.lookup, eq_comm]
        split <;> simp_all
      · simp only [Memory.lookup, ih]
        split <;> split <;> simp_all

/-- An insertion lists no address beyond the old ones and its own. -/
theorem Memory.mem_insert {m : Memory} {k : Nat} {v : Byte} {c : Host.Cell} (h : c ∈ m.insert k v) :
    c = (k, v) ∨ c ∈ m := by
  induction m with
  | nil => simpa [Memory.insert] using h
  | cons d rest ih =>
    obtain ⟨a, b⟩ := d
    simp only [Memory.insert] at h
    split at h
    · simpa using h
    · split at h
      · rcases List.mem_cons.1 h with h | h
        · exact .inl h
        · exact .inr (List.mem_cons_of_mem _ h)
      · rcases List.mem_cons.1 h with h | h
        · exact .inr (h ▸ List.mem_cons_self)
        · exact (ih h).imp id (List.mem_cons_of_mem _)

/-- An insertion at a 32-bit address keeps the canonical form. -/
theorem Memory.insert_wf {m : Memory} {k : Nat} (v : Byte) (hm : m.wf) (hk : k < 2 ^ 32) : (m.insert k v).wf := by
  refine ⟨?_, fun c hc => ?_⟩
  · obtain ⟨hp, -⟩ := hm
    induction m with
    | nil => simp [Memory.insert]
    | cons d rest ih =>
      obtain ⟨a, b⟩ := d
      obtain ⟨hd, hr⟩ := List.pairwise_cons.1 hp
      simp only [Memory.insert]
      split
      · rename_i hlt
        refine List.pairwise_cons.2 ⟨fun c hc => ?_, hp⟩
        rcases List.mem_cons.1 hc with rfl | hc
        · exact hlt
        · exact Nat.lt_trans hlt (hd c hc)
      · split
        · rename_i heq
          exact List.pairwise_cons.2 ⟨fun c hc => heq ▸ hd c hc, hr⟩
        · rename_i hge hne
          refine List.pairwise_cons.2 ⟨fun c hc => ?_, ih hr⟩
          rcases Memory.mem_insert hc with rfl | hc
          · show a < k
            omega
          · exact hd c hc
  · rcases Memory.mem_insert hc with rfl | hc
    · exact hk
    · exact hm.2 c hc

/-! ### Reads after the three stores -/

theorem Memory.readByte_insert (m : Memory) (a b : Word) (v : Byte) :
    Memory.readByte (m.insert a.toNat v) b = if b = a then some v else m.readByte b := by
  simp only [Memory.readByte, Memory.lookup_insert, BitVec.toNat_inj]

theorem Memory.readByte_storeByte (m : Memory) (a v b : Word) :
    (m.storeByte a v).readByte b = if b = a then some (byteOfWord v 0) else m.readByte b :=
  Memory.readByte_insert m a b _

theorem Memory.readByte_storeHalf (m : Memory) (a v b : Word) :
    (m.storeHalf a v).readByte b =
      if b = a + 1 then some (byteOfWord v 1) else if b = a then some (byteOfWord v 0) else m.readByte b := by
  simp only [Memory.storeHalf, Memory.readByte_insert, Memory.readByte_storeByte]

theorem Memory.readByte_storeWord (m : Memory) (a v b : Word) :
    (m.storeWord a v).readByte b =
      if b = a + 3 then some (byteOfWord v 3) else if b = a + 2 then some (byteOfWord v 2)
      else if b = a + 1 then some (byteOfWord v 1) else if b = a then some (byteOfWord v 0) else m.readByte b := by
  simp only [Memory.storeWord, Memory.readByte_insert, Memory.readByte_storeHalf]

/-! ### Every memory operation keeps the canonical form -/

theorem Memory.storeByte_wf {m : Memory} (a v : Word) (h : m.wf) : (m.storeByte a v).wf :=
  Memory.insert_wf _ h a.isLt

theorem Memory.storeHalf_wf {m : Memory} (a v : Word) (h : m.wf) : (m.storeHalf a v).wf :=
  Memory.insert_wf _ (Memory.storeByte_wf a v h) (a + 1).isLt

theorem Memory.storeWord_wf {m : Memory} (a v : Word) (h : m.wf) : (m.storeWord a v).wf :=
  Memory.insert_wf _ (Memory.insert_wf _ (Memory.storeHalf_wf a v h) (a + 2).isLt) (a + 3).isLt

theorem Memory.loadImage_wf {m : Memory} (base : Word) (image : List Word) (h : m.wf) :
    (m.loadImage base image).wf := by
  induction image generalizing m base with
  | nil => exact h
  | cons w ws ih => exact ih _ (Memory.storeWord_wf base w h)

theorem State.reset_mem_wf : State.reset.mem.wf := by decide

theorem boot_mem_wf (cfg : BootConfig) (image : List Word) : (boot cfg image).mem.wf :=
  Memory.loadImage_wf cfg.baseAddr image (by decide)

/-! ### No operation unmaps a byte (R41) -/

theorem Memory.mapped_insert {m : Memory} {b : Word} (a : Word) (v : Byte) (h : m.mapped b = true) :
    Memory.mapped (m.insert a.toNat v) b = true := by
  simp only [Memory.mapped, Memory.readByte_insert] at h ⊢
  split
  · rfl
  · exact h

theorem Memory.mapped_storeByte {m : Memory} {b : Word} (a v : Word) (h : m.mapped b = true) :
    (m.storeByte a v).mapped b = true := Memory.mapped_insert a _ h

theorem Memory.mapped_storeHalf {m : Memory} {b : Word} (a v : Word) (h : m.mapped b = true) :
    (m.storeHalf a v).mapped b = true := Memory.mapped_insert _ _ (Memory.mapped_storeByte a v h)

theorem Memory.mapped_storeWord {m : Memory} {b : Word} (a v : Word) (h : m.mapped b = true) :
    (m.storeWord a v).mapped b = true :=
  Memory.mapped_insert _ _ (Memory.mapped_insert _ _ (Memory.mapped_storeHalf a v h))

/-! ### A word or half-word is unreadable exactly where one of its bytes is unmapped (R43) -/

theorem Memory.readHalf_isSome (m : Memory) (a : Word) :
    (m.readHalf a).isSome = (m.mapped a && m.mapped (a + 1)) := by
  unfold Memory.readHalf Memory.mapped
  cases m.readByte a <;> cases m.readByte (a + 1) <;> rfl

theorem Memory.readWord_isSome (m : Memory) (a : Word) :
    (m.readWord a).isSome = (m.mapped a && m.mapped (a + 1) && m.mapped (a + 2) && m.mapped (a + 3)) := by
  unfold Memory.readWord Memory.mapped
  cases m.readByte a <;> cases m.readByte (a + 1) <;> cases m.readByte (a + 2) <;> cases m.readByte (a + 3) <;> rfl

end Sys2Proof.Machine
end

