-- ==== Sys2Proof/Laws/State.lean ====
section
/-! SUPPORT. What each operation of Machine/Ops.lean does to each field of the state: one lemma per field per
operation, so that no later proof unfolds a record update. -/

namespace Sys2Proof.Machine

variable (s : State) (r rd : RegIdx) (v next target addr : Word) (k : AccessKind) (n : Nat) (m : Memory)
  (c : TermCause) (e : ConsoleEvent) (d : Diagnostic)

/-! ### setReg -/

@[simp] theorem State.setReg_pc : (s.setReg r v).pc = s.pc := by unfold State.setReg; split <;> rfl
@[simp] theorem State.setReg_mem : (s.setReg r v).mem = s.mem := by unfold State.setReg; split <;> rfl
@[simp] theorem State.setReg_run : (s.setReg r v).run = s.run := by unfold State.setReg; split <;> rfl
@[simp] theorem State.setReg_console : (s.setReg r v).console = s.console := by unfold State.setReg; split <;> rfl
@[simp] theorem State.setReg_diags : (s.setReg r v).diags = s.diags := by unfold State.setReg; split <;> rfl

/-! ### goto -/

@[simp] theorem State.goto_pc : (s.goto next).pc = next := by unfold State.goto; split <;> rfl
@[simp] theorem State.goto_regs : (s.goto next).regs = s.regs := by unfold State.goto; split <;> rfl
@[simp] theorem State.goto_mem : (s.goto next).mem = s.mem := by unfold State.goto; split <;> rfl
@[simp] theorem State.goto_console : (s.goto next).console = s.console := by unfold State.goto; split <;> rfl
@[simp] theorem State.goto_diags : (s.goto next).diags = s.diags := by unfold State.goto; split <;> rfl
@[simp] theorem State.goto_run :
    (s.goto next).run = if s.mem.mapped next = true then s.run else .terminated .ranOffEnd := by
  unfold State.goto; split <;> rfl
@[simp] theorem State.goto_getReg : (s.goto next).getReg r = s.getReg r := by simp [State.getReg]

/-! ### diagnose -/

@[simp] theorem State.diagnose_regs : (s.diagnose d).regs = s.regs := rfl
@[simp] theorem State.diagnose_pc : (s.diagnose d).pc = s.pc := rfl
@[simp] theorem State.diagnose_mem : (s.diagnose d).mem = s.mem := rfl
@[simp] theorem State.diagnose_run : (s.diagnose d).run = s.run := rfl
@[simp] theorem State.diagnose_console : (s.diagnose d).console = s.console := rfl
@[simp] theorem State.diagnose_diags : (s.diagnose d).diags = s.diags ++ [d] := rfl
@[simp] theorem State.diagnose_getReg : (s.diagnose d).getReg r = s.getReg r := rfl

/-! ### emit -/

@[simp] theorem State.emit_regs : (s.emit e).regs = s.regs := rfl
@[simp] theorem State.emit_pc : (s.emit e).pc = s.pc := rfl
@[simp] theorem State.emit_mem : (s.emit e).mem = s.mem := rfl
@[simp] theorem State.emit_run : (s.emit e).run = s.run := rfl
@[simp] theorem State.emit_console : (s.emit e).console = s.console ++ [e] := rfl
@[simp] theorem State.emit_diags : (s.emit e).diags = s.diags := rfl
@[simp] theorem State.emit_getReg : (s.emit e).getReg r = s.getReg r := rfl

/-! ### terminate -/

@[simp] theorem State.terminate_regs : (s.terminate c).regs = s.regs := rfl
@[simp] theorem State.terminate_pc : (s.terminate c).pc = s.pc := rfl
@[simp] theorem State.terminate_mem : (s.terminate c).mem = s.mem := rfl
@[simp] theorem State.terminate_run : (s.terminate c).run = .terminated c := rfl
@[simp] theorem State.terminate_console : (s.terminate c).console = s.console := rfl
@[simp] theorem State.terminate_diags : (s.terminate c).diags = s.diags := rfl
@[simp] theorem State.terminate_getReg : (s.terminate c).getReg r = s.getReg r := rfl

/-! ### raiseUnmapped -/

@[simp] theorem State.raiseUnmapped_regs : (s.raiseUnmapped k addr n).regs = s.regs := rfl
@[simp] theorem State.raiseUnmapped_pc : (s.raiseUnmapped k addr n).pc = s.pc := rfl
@[simp] theorem State.raiseUnmapped_mem : (s.raiseUnmapped k addr n).mem = s.mem := rfl
@[simp] theorem State.raiseUnmapped_run : (s.raiseUnmapped k addr n).run = .faulted ⟨k, addr, n, s.pc⟩ := rfl
@[simp] theorem State.raiseUnmapped_console : (s.raiseUnmapped k addr n).console = s.console := rfl
@[simp] theorem State.raiseUnmapped_diags : (s.raiseUnmapped k addr n).diags = s.diags := rfl
@[simp] theorem State.raiseUnmapped_getReg : (s.raiseUnmapped k addr n).getReg r = s.getReg r := rfl

/-! ### retireStore -/

@[simp] theorem State.retireStore_regs : (s.retireStore m).regs = s.regs := by
  simp [State.retireStore, State.advance]
@[simp] theorem State.retireStore_pc : (s.retireStore m).pc = s.pc + 4 := by simp [State.retireStore, State.advance]
@[simp] theorem State.retireStore_mem : (s.retireStore m).mem = m := by simp [State.retireStore, State.advance]
@[simp] theorem State.retireStore_console : (s.retireStore m).console = s.console := by
  simp [State.retireStore, State.advance]
@[simp] theorem State.retireStore_diags : (s.retireStore m).diags = s.diags := by
  simp [State.retireStore, State.advance]
@[simp] theorem State.retireStore_getReg : (s.retireStore m).getReg r = s.getReg r := by simp [State.getReg]

/-! ### placeWord -/

@[simp] theorem State.placeWord_regs : (s.placeWord v).regs = s.regs := rfl
@[simp] theorem State.placeWord_pc : (s.placeWord v).pc = s.pc := rfl
@[simp] theorem State.placeWord_mem : (s.placeWord v).mem = s.mem.storeWord s.pc v := rfl
@[simp] theorem State.placeWord_run : (s.placeWord v).run = .running := rfl
@[simp] theorem State.placeWord_getReg : (s.placeWord v).getReg r = s.getReg r := rfl

/-! ### Registers: a read after a write -/

@[simp] theorem State.getReg_zero : s.getReg 0 = 0#32 := by simp [State.getReg]

/-- Everything a register write does to register reads (R21). -/
theorem State.getReg_setReg :
    (s.setReg rd v).getReg r = if r = 0 then 0#32 else if r = rd then v else s.getReg r := by
  by_cases hr : r = 0
  · simp [hr]
  · by_cases hd : rd = 0
    · have hne : r ≠ rd := fun e => hr (e.trans hd)
      simp [State.setReg, hd, hr]
    · simp only [State.setReg, hd, State.getReg, hr, if_false, Vector.get_eq_getElem]
      by_cases h : r = rd
      · subst h
        simp only [if_true]
        exact Vector.getElem_set_self _
      · have hne : rd.val ≠ r.val := fun e => h (Fin.ext e.symm)
        simp only [h, if_false]
        exact Vector.getElem_set_ne _ _ hne

/-- A register write never touches x0's slot (R21). -/
@[simp] theorem State.setReg_slotZero : (s.setReg rd v).regs.get 0 = s.regs.get 0 := by
  unfold State.setReg
  split
  · rfl
  · rename_i h
    have : rd.val ≠ 0 := fun e => h (Fin.ext e)
    simp only [Vector.get_eq_getElem, Fin.val_zero]
    rw [Vector.getElem_set_ne _ _ this]

end Sys2Proof.Machine
end

