-- ==== Sys2Proof/Laws/Ops.lean ====
section
/-! SUPPORT. One lemma per shared operation that says everything it does, in the terms of Safety.lean, and what a step
can be: `exec_shape`. Later proofs cite these and unfold no meaning. -/

namespace Sys2Proof.Machine

/-! ### Bytes of a value -/

/-- v[8k+7:8k] as arithmetic. -/
theorem byteOfWord_eq (v : Word) (k : Nat) : byteOfWord v k = BitVec.ofNat 8 (v.toNat / 256 ^ k) := by
  apply BitVec.eq_of_toNat_eq
  simp [byteOfWord, Nat.shiftRight_eq_div_pow, Nat.pow_mul]

/-! ### Register results -/

theorem State.setReg_writes (s : State) (rd : RegIdx) (v : Word) : WritesReg s (s.setReg rd v) rd v :=
  fun r => State.getReg_setReg s r rd v

/-- All that `goto` does: the step ends there and nothing else changes. -/
theorem State.goto_spec (s : State) (next : Word) :
    SameRegs s (s.goto next) ∧ SameBytes s (s.goto next) ∧ Silent s (s.goto next) ∧ EndsAt s (s.goto next) next :=
  ⟨fun r => s.goto_getReg r next, fun a => by simp, ⟨by simp, by simp⟩, by simp [EndsAt]⟩

theorem State.retire_spec (s : State) (rd : RegIdx) (v : Word) :
    RegisterResult s rd v (.next (s.retire rd v)) :=
  ⟨_, rfl, fun r => by simpa [State.retire, State.advance] using State.setReg_writes s rd v r,
    fun a => by simp [State.retire, State.advance], by simp [Silent, State.retire, State.advance],
    by simp [EndsAt, State.retire, State.advance]⟩

theorem State.advance_spec (s : State) : OnlyAdvances s (.next s.advance) :=
  ⟨_, rfl, s.goto_spec (s.pc + 4)⟩

/-! ### Redirects -/

/-- The two low bits are 0 exactly at a multiple of 4. -/
theorem extract_low_two_eq_zero (t : Word) : t.extractLsb' 0 2 = 0#2 ↔ t.toNat % 4 = 0 := by
  rw [← BitVec.toNat_inj]
  simp

/-- All that `redirect` does: a warning unless aligned, and the step ends at the target. -/
theorem State.redirect_spec (s : State) (target : Word) :
    SameRegs s (s.redirect target) ∧ SameBytes s (s.redirect target) ∧ (s.redirect target).console = s.console ∧
      WarnsUnlessAligned s (s.redirect target) target ∧ EndsAt s (s.redirect target) target := by
  unfold State.redirect WarnsUnlessAligned
  by_cases h : target.toNat % 4 = 0
  · have h' := (extract_low_two_eq_zero target).2 h
    obtain ⟨hr, hm, ⟨hc, hd⟩, he⟩ := s.goto_spec target
    simp only [h', h, if_true]
    exact ⟨hr, hm, hc, hd, he⟩
  · have h' := mt (extract_low_two_eq_zero target).1 h
    obtain ⟨hr, hm, ⟨hc, hd⟩, he⟩ := (s.diagnose (.alignmentWarning target)).goto_spec target
    simp only [h', h, if_false]
    exact ⟨hr, hm, hc, hd, he⟩

theorem State.redirect_redirects (s : State) (target : Word) : RedirectsTo s target (.next (s.redirect target)) :=
  ⟨_, rfl, s.redirect_spec target⟩

theorem State.jump_spec (s : State) (rd : RegIdx) (link target : Word) :
    JumpResult s rd link target (.next ((s.setReg rd link).redirect target)) := by
  obtain ⟨hr, hm, hc, hw, he⟩ := (s.setReg rd link).redirect_spec target
  refine ⟨_, rfl, fun r => (hr r).trans (State.setReg_writes s rd link r), fun a => ?_, ?_, ?_, ?_⟩
  · simpa using hm a
  · simpa using hc
  · simpa [WarnsUnlessAligned] using hw
  · simpa [EndsAt] using he

/-! ### Loads and stores -/

theorem State.raiseUnmapped_spec (s : State) (k : AccessKind) (addr : Word) (n : Nat) :
    FaultResult s ⟨k, addr, n, s.pc⟩ (.next (s.raiseUnmapped k addr n)) :=
  ⟨_, rfl, fun _ => rfl, fun _ => rfl, ⟨rfl, rfl⟩, rfl, rfl⟩

/-- All that the end of a load does. -/
theorem State.retireLoad_spec (s : State) (rd : RegIdx) (addr : Word) (n : Nat) (value : Option Word) :
    (∀ v, value = some v → RegisterResult s rd v (.next (s.retireLoad rd addr n value))) ∧
      (value = none → FaultResult s ⟨.load, addr, n, s.pc⟩ (.next (s.retireLoad rd addr n value))) :=
  ⟨fun v h => h ▸ s.retire_spec rd v, fun h => h ▸ s.raiseUnmapped_spec .load addr n⟩

/-- The end of a store, given what the new memory reads as. -/
theorem State.retireStore_spec {s : State} {m : Memory} {ea v : Word} {n : Nat}
    (hin : ∀ k < n, m.readByte (ea + BitVec.ofNat 32 k) = some (byteOfWord v k))
    (hout : ∀ a : Word, (∀ k < n, a ≠ ea + BitVec.ofNat 32 k) → m.readByte a = s.mem.readByte a) :
    StoreResult s ea n v (.next (s.retireStore m)) :=
  ⟨_, rfl, fun k hk => by rw [State.retireStore_mem, hin k hk, byteOfWord_eq],
    fun a ha => by rw [State.retireStore_mem, hout a ha], fun r => by simp, by simp [Silent],
    by simp [EndsAt, State.retireStore, State.advance]⟩

theorem State.storeByte_spec (s : State) (ea v : Word) :
    StoreResult s ea 1 v (.next (s.retireStore (s.mem.storeByte ea v))) := by
  refine State.retireStore_spec (fun k hk => ?_) fun a ha => ?_
  · interval_cases k
    simp [Memory.readByte_storeByte]
  · have h0 := ha 0 (by decide)
    rw [Memory.readByte_storeByte, if_neg (by simpa using h0)]

theorem State.storeHalf_spec (s : State) (ea v : Word) :
    StoreResult s ea 2 v (.next (s.retireStore (s.mem.storeHalf ea v))) := by
  refine State.retireStore_spec (fun k hk => ?_) fun a ha => ?_
  · rw [Memory.readByte_storeHalf]
    interval_cases k <;> simp
  · have h0 := ha 0 (by decide)
    have h1 := ha 1 (by decide)
    rw [Memory.readByte_storeHalf, if_neg (by simpa using h1), if_neg (by simpa using h0)]

theorem State.storeWord_spec (s : State) (ea v : Word) :
    StoreResult s ea 4 v (.next (s.retireStore (s.mem.storeWord ea v))) := by
  refine State.retireStore_spec (fun k hk => ?_) fun a ha => ?_
  · rw [Memory.readByte_storeWord]
    interval_cases k <;> simp
  · have h0 := ha 0 (by decide)
    have h1 := ha 1 (by decide)
    have h2 := ha 2 (by decide)
    have h3 := ha 3 (by decide)
    rw [Memory.readByte_storeWord, if_neg (by simpa using h3), if_neg (by simpa using h2),
      if_neg (by simpa using h1), if_neg (by simpa using h0)]

/-! ### What an access misses -/

theorem missesByte_one {m : Memory} {a pc : Word} {k : AccessKind} (h : m.readByte a = none) :
    FaultRecord.missesByte ⟨k, a, 1, pc⟩ m = true := by
  simp [FaultRecord.missesByte, Memory.mapped, h]

theorem missesByte_half {m : Memory} {a pc : Word} {k : AccessKind} (h : m.readHalf a = none) :
    FaultRecord.missesByte ⟨k, a, 2, pc⟩ m = true := by
  have hs := Memory.readHalf_isSome m a
  rw [h] at hs
  have hr : List.range 2 = [0, 1] := rfl
  simp only [FaultRecord.missesByte, hr, List.any_cons, List.any_nil, Bool.or_false, BitVec.add_zero]
  simp only [Option.isSome_none] at hs
  cases h0 : m.mapped a <;> simp_all

theorem missesByte_word {m : Memory} {a pc : Word} {k : AccessKind} (h : m.readWord a = none) :
    FaultRecord.missesByte ⟨k, a, 4, pc⟩ m = true := by
  have hs := Memory.readWord_isSome m a
  rw [h] at hs
  have hr : List.range 4 = [0, 1, 2, 3] := rfl
  simp only [FaultRecord.missesByte, hr, List.any_cons, List.any_nil, Bool.or_false, BitVec.add_zero]
  simp only [Option.isSome_none] at hs
  cases h0 : m.mapped a <;> cases h1 : m.mapped (a + 1) <;> cases h2 : m.mapped (a + 2) <;> simp_all

end Sys2Proof.Machine
end

