-- ==== Sys2Proof/Laws/Exec.lean ====
section
/-! SUPPORT. What `exec` and `step` can do, said once: `exec_shape` lists the shapes of next state an instruction can
give, `step_cases` those of a step. Invariants are proved from these, not by unfolding the meanings. -/

namespace Sys2Proof.Machine

/-! ### Even targets (R26) -/

theorem even_iff_lsb {n : Nat} (x : BitVec n) : x.toNat % 2 = 0 ↔ x.getLsbD 0 = false := by
  simp [BitVec.getLsbD, Nat.testBit_zero]

/-- pc plus an even offset is even. -/
theorem even_add_offset {n : Nat} {pc : Word} {offset : BitVec n} (hn : 0 < n) (hpc : pc.toNat % 2 = 0)
    (ho : evenOffset offset = true) : (pc + sext32 offset).toNat % 2 = 0 := by
  rw [even_iff_lsb] at hpc ⊢
  have h0 : (sext32 offset).getLsbD 0 = false := by
    rw [sext32, BitVec.getLsbD_signExtend]
    simpa [hn, evenOffset] using ho
  rw [BitVec.getLsbD_add (by decide), hpc, h0]
  simp [BitVec.carry, Nat.mod_one]

theorem even_add_four {pc : Word} (h : pc.toNat % 2 = 0) : (pc + 4).toNat % 2 = 0 := by
  simp only [BitVec.toNat_add]
  have : (4 : Word).toNat = 4 := rfl
  omega

/-- JALR clears bit 0 of its target (R101). -/
theorem jalrTarget_even (s : State) (rs1 : RegIdx) (imm : BitVec 12) : (s.jalrTarget rs1 imm).toNat % 2 = 0 := by
  rw [even_iff_lsb, State.jalrTarget, BitVec.getLsbD_and]
  simp

/-! ### The shapes of a next state -/

/-- The next states an instruction can give from `s`. A redirect's target is even wherever the pc is and the
instruction is well formed. -/
inductive ExecShape (i : Instr) (s : State) : State → Prop where
  | retire (rd : RegIdx) (v : Word) : ExecShape i s (s.retire rd v)
  | advance : ExecShape i s s.advance
  | jump (rd : RegIdx) (target : Word) (even : i.wf = true → s.pc.toNat % 2 = 0 → target.toNat % 2 = 0) :
      ExecShape i s ((s.setReg rd s.link).redirect target)
  | branch (target : Word) (even : i.wf = true → s.pc.toNat % 2 = 0 → target.toNat % 2 = 0) :
      ExecShape i s (s.redirect target)
  | loadFault (addr : Word) (n : Nat) (size : n = 1 ∨ n = 2 ∨ n = 4)
      (misses : FaultRecord.missesByte ⟨.load, addr, n, s.pc⟩ s.mem = true) :
      ExecShape i s (s.raiseUnmapped .load addr n)
  | storeByte (a v : Word) : ExecShape i s (s.retireStore (s.mem.storeByte a v))
  | storeHalf (a v : Word) : ExecShape i s (s.retireStore (s.mem.storeHalf a v))
  | storeWord (a v : Word) : ExecShape i s (s.retireStore (s.mem.storeWord a v))
  | print (ignored : BitVec 25) (e : ConsoleEvent) (ecall : i = .ecall ignored) : ExecShape i s (s.emit e).advance
  | exit (ignored : BitVec 25) (ecall : i = .ecall ignored) (a0 : s.getReg regA0 = 10#32) :
      ExecShape i s (s.terminate .ecallExit)
  | otherExit (ignored : BitVec 25) (ecall : i = .ecall ignored)
      (a0 : s.getReg regA0 ∉ [1#32, 4#32, 9#32, 10#32, 11#32]) :
      ExecShape i s ((s.setReg regA1 0#32).terminate (.ecallOtherExit (s.getReg regA0)))

/-- The shapes of an environment call (R200 to R205). -/
theorem ecallService_shape (ignored : BitVec 25) (s : State) : ExecShape (.ecall ignored) s (ecallService s) := by
  unfold ecallService
  split
  · exact .print ignored _ rfl
  · split
    · exact .advance
    · split
      · exact .advance
      · split
        · rename_i h
          exact .exit ignored rfl h
        · split
          · exact .print ignored _ rfl
          · refine .otherExit ignored rfl ?_
            simp_all

/-- The shapes of the end of a load. -/
theorem retireLoad_shape {i : Instr} {s : State} (rd : RegIdx) {addr : Word} {n : Nat} {value : Option Word}
    (size : n = 1 ∨ n = 2 ∨ n = 4)
    (misses : value = none → FaultRecord.missesByte ⟨.load, addr, n, s.pc⟩ s.mem = true) :
    ExecShape i s (s.retireLoad rd addr n value) := by
  cases value with
  | some v => exact .retire rd v
  | none => exact .loadFault addr n size (misses rfl)

/-- The shapes of a branch. -/
theorem branchIf_shape {i : Instr} {s : State} (taken : Bool) (offset : BitVec 13)
    (even : i.wf = true → evenOffset offset = true) :
    ∃ t, branchIf taken offset s = .next t ∧ ExecShape i s t := by
  cases taken with
  | true => exact ⟨_, rfl, .branch _ fun hi hpc => even_add_offset (by decide) hpc (even hi)⟩
  | false => exact ⟨_, rfl, .advance⟩

/-- Every instruction answers a next state, of one of the shapes. -/
theorem exec_shape (i : Instr) (s : State) : ∃ t, exec i s = .next t ∧ ExecShape i s t := by
  cases i with
  | lui | auipc => exact ⟨_, rfl, .retire _ _⟩
  | jal rd offset => exact ⟨_, rfl, .jump _ _ fun hi hpc => even_add_offset (by decide) hpc hi⟩
  | jalr rd rs1 imm => exact ⟨_, rfl, .jump _ _ fun _ _ => jalrTarget_even s rs1 imm⟩
  | beq | bne | blt | bge | bltu | bgeu => exact branchIf_shape _ _ id
  | lb | lbu => exact ⟨_, rfl, retireLoad_shape _ (.inl rfl) fun h => missesByte_one (by simpa using h)⟩
  | lh | lhu => exact ⟨_, rfl, retireLoad_shape _ (.inr (.inl rfl)) fun h => missesByte_half (by simpa using h)⟩
  | lw => exact ⟨_, rfl, retireLoad_shape _ (.inr (.inr rfl)) fun h => missesByte_word h⟩
  | sb => exact ⟨_, rfl, .storeByte _ _⟩
  | sh => exact ⟨_, rfl, .storeHalf _ _⟩
  | sw => exact ⟨_, rfl, .storeWord _ _⟩
  | addi | slti | sltiu | xori | ori | andi | slli | srli | srai => exact ⟨_, rfl, .retire _ _⟩
  | add | sub | sll | slt | sltu | xor | srl | sra | or | and => exact ⟨_, rfl, .retire _ _⟩
  | mul | mulh | mulhsu | mulhu | div | divu | rem | remu => exact ⟨_, rfl, .retire _ _⟩
  | fence => exact ⟨_, rfl, .advance⟩
  | ecall ignored => exact ⟨_, rfl, ecallService_shape ignored s⟩

/-! ### A step -/

/-- What a step can be: it is taken in a `running` state with a mapped pc alone, and then a partly mapped word raises
a fetch fault, an instruction's word does what the instruction does, and any other word takes the unimplemented path. -/
theorem step_cases {s t : State} (h : step s = .next t) :
    s.run = .running ∧ s.mem.mapped s.pc = true ∧
      ((s.fetchWord = none ∧ t = s.raiseUnmapped .fetch s.pc 4) ∨
        (∃ w i, s.fetchWord = some w ∧ decodeWord w = .instr i ∧ exec i s = .next t) ∨
        ∃ w w', s.fetchWord = some w ∧ decodeWord w = .unimplemented w' ∧
          t = (s.diagnose (.unimplementedOpcode w')).advance) := by
  unfold step at h
  cases hr : s.run with
  | terminated c => simp [hr] at h
  | faulted r => simp [hr] at h
  | running =>
    simp only [hr] at h
    by_cases hm : s.mem.mapped s.pc = true
    · simp only [hm, if_true, fetchAndRun] at h
      refine ⟨rfl, hm, ?_⟩
      cases hf : s.fetchWord with
      | none =>
        simp only [hf, Host.Outcome.next.injEq] at h
        exact .inl ⟨rfl, h.symm⟩
      | some w =>
        simp only [hf, runWord] at h
        cases hd : decodeWord w with
        | instr i =>
          rw [hd] at h
          exact .inr (.inl ⟨w, i, rfl, hd, h⟩)
        | unimplemented w' =>
          rw [hd] at h
          simp only [execUnimplemented, Host.Outcome.next.injEq] at h
          exact .inr (.inr ⟨w, w', rfl, hd, h.symm⟩)
    · simp [hm] at h

/-- An invariant of every step holds of every state a run reaches. -/
theorem Reachable.invariant {P : State → Prop} {start s : State} (h0 : P start)
    (hstep : ∀ s t, P s → step s = .next t → P t) (h : Reachable start s) : P s := by
  induction h with
  | atStart => exact h0
  | afterStep _ hs ih => exact hstep _ _ ih hs

end Sys2Proof.Machine
end

