-- ==== Sys2Proof/Tests/Slice0.lean ====
section
/-! SUPPORT. Tests of the model, expected values from spec/95_test_vectors.md, and a witness for each statement with
hypotheses. A decode test's word is a row of 95 sections 2.2 to 2.9; an execution test runs the word at 0x100. -/

namespace Sys2Proof.Tests

open Sys2Proof.Machine

/-! ### WellFormed: each check refuses an ill-formed term (R65, R67), and takes the one beside it -/

theorem test_wf_beq : (Instr.beq 1 2 5#13).wf = false ∧ (Instr.beq 1 2 6#13).wf = true := by decide
theorem test_wf_bne : (Instr.bne 1 2 5#13).wf = false ∧ (Instr.bne 1 2 6#13).wf = true := by decide
theorem test_wf_blt : (Instr.blt 1 2 5#13).wf = false ∧ (Instr.blt 1 2 6#13).wf = true := by decide
theorem test_wf_bge : (Instr.bge 1 2 5#13).wf = false ∧ (Instr.bge 1 2 6#13).wf = true := by decide
theorem test_wf_bltu : (Instr.bltu 1 2 5#13).wf = false ∧ (Instr.bltu 1 2 6#13).wf = true := by decide
theorem test_wf_bgeu : (Instr.bgeu 1 2 5#13).wf = false ∧ (Instr.bgeu 1 2 6#13).wf = true := by decide
theorem test_wf_jal : (Instr.jal 1 5#21).wf = false ∧ (Instr.jal 1 6#21).wf = true := by decide

/-! ### Decode: every constructor, from a word of 95 section 2, and back through the encoder -/

/-- A word decodes to `i`, and `i` encodes to it. -/
def roundTrips (w : Word) (i : Instr) : Bool := decodeWord w == .instr i && encode i == w

theorem test_decode_lui : roundTrips 0x123452B7#32 (.lui 5 0x12345#20) = true := by decide
theorem test_decode_auipc : roundTrips 0xFFFFF297#32 (.auipc 5 0xFFFFF#20) = true := by decide
theorem test_decode_jal : roundTrips 0xFFDFF06F#32 (.jal 0 (-4#21)) = true := by decide
theorem test_decode_jalr : roundTrips 0x004300E7#32 (.jalr 1 6 4#12) = true := by decide
theorem test_decode_beq : roundTrips 0x00628863#32 (.beq 5 6 16#13) = true := by decide
theorem test_decode_bne : roundTrips 0xFE629CE3#32 (.bne 5 6 (-8#13)) = true := by decide
theorem test_decode_blt : roundTrips 0x0062C663#32 (.blt 5 6 12#13) = true := by decide
theorem test_decode_bge : roundTrips 0x0062D663#32 (.bge 5 6 12#13) = true := by decide
theorem test_decode_bltu : roundTrips 0x0062E663#32 (.bltu 5 6 12#13) = true := by decide
theorem test_decode_bgeu : roundTrips 0x0062F663#32 (.bgeu 5 6 12#13) = true := by decide
theorem test_decode_lb : roundTrips 0xFFF30283#32 (.lb 5 6 (-1#12)) = true := by decide
theorem test_decode_lh : roundTrips 0x00231283#32 (.lh 5 6 2#12) = true := by decide
theorem test_decode_lw : roundTrips 0x00132283#32 (.lw 5 6 1#12) = true := by decide
theorem test_decode_lbu : roundTrips 0x00314383#32 (.lbu 7 2 3#12) = true := by decide
theorem test_decode_lhu : roundTrips 0x00435283#32 (.lhu 5 6 4#12) = true := by decide
theorem test_decode_sb : roundTrips 0x00730423#32 (.sb 6 7 8#12) = true := by decide
theorem test_decode_sh : roundTrips 0x00731123#32 (.sh 6 7 2#12) = true := by decide
theorem test_decode_sw : roundTrips 0xFE732E23#32 (.sw 6 7 (-4#12)) = true := by decide
theorem test_decode_addi : roundTrips 0xFFD28293#32 (.addi 5 5 (-3#12)) = true := by decide
theorem test_decode_slti : roundTrips 0xFFF32293#32 (.slti 5 6 (-1#12)) = true := by decide
theorem test_decode_sltiu : roundTrips 0x00133293#32 (.sltiu 5 6 1#12) = true := by decide
theorem test_decode_xori : roundTrips 0xFFF34293#32 (.xori 5 6 (-1#12)) = true := by decide
theorem test_decode_ori : roundTrips 0x0F036293#32 (.ori 5 6 0xF0#12) = true := by decide
theorem test_decode_andi : roundTrips 0xFF037293#32 (.andi 5 6 (-16#12)) = true := by decide
theorem test_decode_slli : roundTrips 0x01F31293#32 (.slli 5 6 31#5) = true := by decide
theorem test_decode_srli : roundTrips 0x00435293#32 (.srli 5 6 4#5) = true := by decide
theorem test_decode_srai : roundTrips 0x40435293#32 (.srai 5 6 4#5) = true := by decide
theorem test_decode_add : roundTrips 0x006283B3#32 (.add 7 5 6) = true := by decide
theorem test_decode_sub : roundTrips 0x406283B3#32 (.sub 7 5 6) = true := by decide
theorem test_decode_sll : roundTrips 0x006293B3#32 (.sll 7 5 6) = true := by decide
theorem test_decode_slt : roundTrips 0x0062A3B3#32 (.slt 7 5 6) = true := by decide
theorem test_decode_sltu : roundTrips 0x0062B3B3#32 (.sltu 7 5 6) = true := by decide
theorem test_decode_xor : roundTrips 0x0062C3B3#32 (.xor 7 5 6) = true := by decide
theorem test_decode_srl : roundTrips 0x0062D3B3#32 (.srl 7 5 6) = true := by decide
theorem test_decode_sra : roundTrips 0x4062D3B3#32 (.sra 7 5 6) = true := by decide
theorem test_decode_or : roundTrips 0x0062E3B3#32 (.or 7 5 6) = true := by decide
theorem test_decode_and : roundTrips 0x0062F3B3#32 (.and 7 5 6) = true := by decide
theorem test_decode_mul : roundTrips 0x026283B3#32 (.mul 7 5 6) = true := by decide
theorem test_decode_mulh : roundTrips 0x026293B3#32 (.mulh 7 5 6) = true := by decide
theorem test_decode_mulhsu : roundTrips 0x0262A3B3#32 (.mulhsu 7 5 6) = true := by decide
theorem test_decode_mulhu : roundTrips 0x0262B3B3#32 (.mulhu 7 5 6) = true := by decide
theorem test_decode_div : roundTrips 0x0262C3B3#32 (.div 7 5 6) = true := by decide
theorem test_decode_divu : roundTrips 0x0262D3B3#32 (.divu 7 5 6) = true := by decide
theorem test_decode_rem : roundTrips 0x0262E3B3#32 (.rem 7 5 6) = true := by decide
theorem test_decode_remu : roundTrips 0x0262F3B3#32 (.remu 7 5 6) = true := by decide
theorem test_decode_fence : roundTrips 0x8330000F#32 (.fence 0x1066000#25) = true := by decide
theorem test_decode_ecall : roundTrips 0x30200073#32 (.ecall 0x604000#25) = true := by decide

/-! 95 section 2.2: words of the unimplemented path, a boundary of each case of R79. -/

/-- A word takes the unimplemented path with itself. -/
def isUnimplemented (w : Word) : Bool := decodeWord w == .unimplemented w

theorem test_decode_unimplemented_opcode :
    [0x00000000#32, 0xFFFFFFFF#32, 0x00000012#32, 0x0000007B#32].all isUnimplemented = true := by decide
theorem test_decode_unimplemented_funct3 :
    [0x00001067#32, 0x00002063#32, 0x00003063#32, 0x00003003#32, 0x00006003#32, 0x00007003#32, 0x00003023#32,
      0x00007023#32].all isUnimplemented = true := by decide
theorem test_decode_unimplemented_funct7 :
    [0x02001013#32, 0x40001013#32, 0x02005013#32, 0x42005013#32, 0x40001033#32, 0x40007033#32, 0x04000033#32,
      0x80000033#32].all isUnimplemented = true := by decide

/-- 95 section 2.1: the extreme and the moved bits of immB and immJ. -/
theorem test_immediates :
    (fieldI 0x80000013#32).toInt = -2048 ∧
    (fieldS 0xFE000FA3#32).toInt = -1 ∧ (fieldB 0x80000063#32).toInt = -4096 ∧
    (fieldB 0x7E000FE3#32).toInt = 4094 ∧ (fieldB 0x80000EE3#32).toInt = -2020 ∧
    (fieldJ 0x8000006F#32).toInt = -1048576 ∧ (fieldJ 0x7FFFF06F#32).toInt = 1048574 ∧
    (fieldJ 0x0010006F#32).toInt = 2048 ∧ (fieldJ 0x0000106F#32).toInt = 4096 ∧
    immUpper (fieldU 0xFFFFF037#32) = 0xFFFFF000#32 := by decide

/-- The decoder on bytes takes one little-endian word (R45, R60) and refuses less by name. -/
theorem test_decodeBytes :
    decodeBytes [0x93#8, 0x02#8, 0x10#8, 0x00#8, 0x77#8] = .ok (.instr (.addi 5 0 1#12), [0x77#8]) ∧
    decodeBytes [0x93#8, 0x02#8, 0x10#8] = .error (.tooFewBytes 3) := ⟨rfl, rfl⟩

/-- 95 section 3 P5's word, as the host numbers it. -/
theorem test_decodeTableWord : decodeTableWord 32 0x00100293 = some (.addi 5 0 1#12) := by decide

/-! ### One step -/

/-- A running state at 0x100, a nop at 0x104. -/
def idle : State :=
  { State.reset with pc := 0x100#32, mem := Memory.storeWord [] 0x104#32 0x00000013#32, run := .running }

/-- `idle` with x5 = a and x6 = b, and the word at 0x100. -/
def withX5X6 (a b w : Word) : State := ((idle.setReg 5 a).setReg 6 b).placeWord w

/-- The start of 95 section 2.8: bytes 80 FF 34 12 at 0x200, x6 = base, x7 = 0xAABBCCDD, and the word at 0x100. -/
def withData (base w : Word) : State :=
  let s := (idle.setReg 6 base).setReg 7 0xAABBCCDD#32
  { s with mem := s.mem.storeWord 0x200#32 0x1234FF80#32 }.placeWord w

/-- `idle` with x10 = a0 and x11 = a1, and the word at 0x100. -/
def withA0A1 (a0 a1 w : Word) : State := ((idle.setReg 10 a0).setReg 11 a1).placeWord w

/-- The state after the step; the state itself where there is none. -/
def after (s : State) : State :=
  match step s with
  | .next t => t
  | .fault _ => s
  | .refused _ => s

/-- x7 after an OP word with x5 = a and x6 = b. -/
def opX7 (w a b : Word) : Word := (after (withX5X6 a b w)).getReg 7

/-- x5 after an OP-IMM word with x6 = b. -/
def immX5 (w b : Word) : Word := (after (withX5X6 0#32 b w)).getReg 5

/-- x5 after a load word with x6 = 0x200. -/
def loadX5 (w : Word) : Word := (after (withData 0x200#32 w)).getReg 5

/-- The pc after a word with x5 = a and x6 = b. -/
def pcAfter (w a b : Word) : Word := (after (withX5X6 a b w)).pc

/-! #### Upper immediates (95 section 2.3) -/

theorem test_lui : immX5 0x123452B7#32 0#32 = 0x12345000#32 ∧ immX5 0xFFFFF2B7#32 0#32 = 0xFFFFF000#32 := by decide
theorem test_auipc : immX5 0x00001297#32 0#32 = 0x00001100#32 ∧ immX5 0xFFFFF297#32 0#32 = 0xFFFFF100#32 := by decide
theorem test_lui_x0 : (after (withX5X6 0#32 0#32 0xFFFFF037#32)).getReg 0 = 0#32 := by decide

/-! #### Control transfer (95 section 2.7) -/

theorem test_jal :
    (after (withX5X6 0#32 0#32 0x006000EF#32)).getReg 1 = 0x104#32 ∧ pcAfter 0x006000EF#32 0#32 0#32 = 0x106#32 ∧
    (after (withX5X6 0#32 0#32 0x006000EF#32)).diags = [.alignmentWarning 0x106#32] ∧
    pcAfter 0xFFDFF06F#32 0#32 0#32 = 0xFC#32 := by decide
theorem test_jalr :
    (after (withX5X6 0#32 0x201#32 0x004300E7#32)).getReg 1 = 0x104#32 ∧
    pcAfter 0x004300E7#32 0#32 0x201#32 = 0x204#32 ∧
    pcAfter 0xFFF300E7#32 0#32 0#32 = 0xFFFFFFFE#32 := by decide
theorem test_jalr_link_is_base :
    (after ((idle.setReg 1 0x300#32).placeWord 0x000080E7#32)).pc = 0x300#32 ∧
    (after ((idle.setReg 1 0x300#32).placeWord 0x000080E7#32)).getReg 1 = 0x104#32 := by decide
theorem test_beq :
    pcAfter 0x00628863#32 7#32 7#32 = 0x110#32 ∧
    pcAfter 0x00628863#32 7#32 8#32 = 0x104#32 := by decide
theorem test_bne : pcAfter 0xFE629CE3#32 7#32 8#32 = 0xF8#32 ∧ pcAfter 0xFE629CE3#32 7#32 7#32 = 0x104#32 := by decide
theorem test_blt : pcAfter 0x0062C663#32 (-1#32) 1#32 = 0x10C#32 := by decide
theorem test_bge :
    pcAfter 0x0062D663#32 (-1#32) 1#32 = 0x104#32 ∧
    pcAfter 0x0062D663#32 0x80000000#32 0x80000000#32 = 0x10C#32 := by decide
theorem test_bltu : pcAfter 0x0062E663#32 (-1#32) 1#32 = 0x104#32 := by decide
theorem test_bgeu : pcAfter 0x0062F663#32 (-1#32) 1#32 = 0x10C#32 := by decide

/-! #### Loads and stores (95 section 2.8) -/

theorem test_lb : loadX5 0x00030283#32 = 0xFFFFFF80#32 := by decide
theorem test_lh : loadX5 0x00031283#32 = 0xFFFFFF80#32 ∧ loadX5 0x00131283#32 = 0x000034FF#32 := by decide
theorem test_lw : loadX5 0x00032283#32 = 0x1234FF80#32 := by decide
theorem test_lbu : loadX5 0x00034283#32 = 0x00000080#32 := by decide
theorem test_lhu : loadX5 0x00035283#32 = 0x0000FF80#32 := by decide
theorem test_lb_faults :
    (after (withData 0x200#32 0xFFF30283#32)).run = .faulted ⟨.load, 0x1FF#32, 1, 0x100#32⟩ ∧
    (after (withData 0x200#32 0xFFF30283#32)).pc = 0x100#32 := by decide
theorem test_lw_faults :
    (after (withData 0x200#32 0x00132283#32)).run = .faulted ⟨.load, 0x201#32, 4, 0x100#32⟩ ∧
    (after (withData 0x300#32 0x00032003#32)).run = .faulted ⟨.load, 0x300#32, 4, 0x100#32⟩ := by decide
theorem test_sb : (after (withData 0x200#32 0x00730023#32)).mem.readWord 0x200#32 = some 0x1234FFDD#32 := by decide
theorem test_sh : (after (withData 0x200#32 0x00731123#32)).mem.readWord 0x200#32 = some 0xCCDDFF80#32 := by decide
theorem test_sw : (after (withData 0x200#32 0x00732223#32)).mem.readWord 0x201#32 = some 0xDD1234FF#32 := by decide
theorem test_sw_wraps :
    (after (withData 0xFFFFFFFE#32 0x00732023#32)).mem.readHalf 0xFFFFFFFE#32 = some 0xCCDD#16 ∧
    (after (withData 0xFFFFFFFE#32 0x00732023#32)).mem.readHalf 0#32 = some 0xAABB#16 := by decide

/-! #### Integer register-immediate (95 section 2.4) -/

theorem test_addi :
    immX5 0xFFF30293#32 0#32 = 0xFFFFFFFF#32 ∧
    immX5 0x00130293#32 0x7FFFFFFF#32 = 0x80000000#32 := by decide
theorem test_slti : immX5 0xFFF32293#32 0xFFFFFFFE#32 = 1#32 ∧ immX5 0xFFF32293#32 0xFFFFFFFF#32 = 0#32 := by decide
theorem test_sltiu : immX5 0xFFF33293#32 0x00010000#32 = 1#32 ∧ immX5 0x00133293#32 0x80000000#32 = 0#32 := by decide
theorem test_xori : immX5 0xFFF34293#32 0x0F0F0F0F#32 = 0xF0F0F0F0#32 := by decide
theorem test_ori : immX5 0x0F036293#32 0x00000F00#32 = 0x00000FF0#32 := by decide
theorem test_andi : immX5 0xFF037293#32 0x12345678#32 = 0x12345670#32 := by decide
theorem test_slli :
    immX5 0x00431293#32 0x80000001#32 = 0x10#32 ∧
    immX5 0x00031293#32 0x80000001#32 = 0x80000001#32 := by decide
theorem test_srli :
    immX5 0x00435293#32 0x80000010#32 = 0x08000001#32 ∧
    immX5 0x01F35293#32 0x80000000#32 = 1#32 := by decide
theorem test_srai :
    immX5 0x40435293#32 0x80000010#32 = 0xF8000001#32 ∧
    immX5 0x41F35293#32 0x7FFFFFFF#32 = 0#32 := by decide

/-! #### Integer register-register (95 section 2.5) -/

theorem test_add :
    opX7 0x006283B3#32 0x7FFFFFFF#32 1#32 = 0x80000000#32 ∧
    opX7 0x006283B3#32 0xFFFFFFFF#32 1#32 = 0#32 := by decide
theorem test_sub :
    opX7 0x406283B3#32 0#32 1#32 = 0xFFFFFFFF#32 ∧
    opX7 0x406283B3#32 0#32 0x80000000#32 = 0x80000000#32 := by decide
theorem test_sll : opX7 0x006293B3#32 1#32 33#32 = 2#32 ∧ opX7 0x006293B3#32 1#32 32#32 = 1#32 := by decide
theorem test_slt : opX7 0x0062A3B3#32 0xFFFFFFFB#32 3#32 = 1#32 ∧ opX7 0x0062A3B3#32 3#32 3#32 = 0#32 := by decide
theorem test_sltu :
    opX7 0x0062B3B3#32 0xFFFFFFFB#32 3#32 = 0#32 ∧
    opX7 0x0062B3B3#32 3#32 0xFFFFFFFB#32 = 1#32 := by decide
theorem test_xor : opX7 0x0062C3B3#32 0xFF00FF00#32 0x0FF00FF0#32 = 0xF0F0F0F0#32 := by decide
theorem test_srl :
    opX7 0x0062D3B3#32 0x80000000#32 31#32 = 1#32 ∧
    opX7 0x0062D3B3#32 0x80000000#32 0xFFFFFFE4#32 = 0x08000000#32 := by decide
theorem test_sra :
    opX7 0x4062D3B3#32 0x80000000#32 31#32 = 0xFFFFFFFF#32 ∧
    opX7 0x4062D3B3#32 0x80000000#32 36#32 = 0xF8000000#32 := by decide
theorem test_or : opX7 0x0062E3B3#32 0xFF00FF00#32 0x0FF00FF0#32 = 0xFFF0FFF0#32 := by decide
theorem test_and : opX7 0x0062F3B3#32 0xFF00FF00#32 0x0FF00FF0#32 = 0x0F000F00#32 := by decide
theorem test_add_same_register : (after (withX5X6 6#32 0#32 0x005282B3#32)).getReg 5 = 12#32 := by decide

/-! #### Multiply and divide (95 section 2.6) -/

theorem test_mul :
    opX7 0x026283B3#32 0x12345678#32 0x9ABCDEF0#32 = 0x242D2080#32 ∧
    opX7 0x026283B3#32 0xFFFFFFF9#32 2#32 = 0xFFFFFFF2#32 := by decide
theorem test_mulh :
    opX7 0x026293B3#32 0xFFFFFFF9#32 2#32 = 0xFFFFFFFF#32 ∧
    opX7 0x026293B3#32 0x80000000#32 0x80000000#32 = 0x40000000#32 := by decide
theorem test_mulhsu :
    opX7 0x0262A3B3#32 0xFFFFFFF9#32 0xFFFFFFFE#32 = 0xFFFFFFF9#32 ∧
    opX7 0x0262A3B3#32 7#32 0xFFFFFFFE#32 = 6#32 := by decide
theorem test_mulhu :
    opX7 0x0262B3B3#32 0xFFFFFFF9#32 0xFFFFFFFE#32 = 0xFFFFFFF7#32 ∧
    opX7 0x0262B3B3#32 0xFFFFFFFF#32 0xFFFFFFFF#32 = 0xFFFFFFFE#32 := by decide
theorem test_div :
    opX7 0x0262C3B3#32 0xFFFFFFF9#32 2#32 = 0xFFFFFFFD#32 ∧
    opX7 0x0262C3B3#32 0x80000000#32 0xFFFFFFFF#32 = 0x80000000#32 ∧
    opX7 0x0262C3B3#32 5#32 0#32 = 0xFFFFFFFF#32 := by decide
theorem test_divu :
    opX7 0x0262D3B3#32 0xFFFFFFF9#32 2#32 = 0x7FFFFFFC#32 ∧
    opX7 0x0262D3B3#32 5#32 0#32 = 0xFFFFFFFF#32 := by decide
theorem test_rem :
    opX7 0x0262E3B3#32 0xFFFFFFF9#32 2#32 = 0xFFFFFFFF#32 ∧
    opX7 0x0262E3B3#32 0x80000000#32 0xFFFFFFFF#32 = 0#32 ∧
    opX7 0x0262E3B3#32 0xFFFFFFFB#32 0#32 = 0xFFFFFFFB#32 := by decide
theorem test_remu :
    opX7 0x0262F3B3#32 0xFFFFFFF9#32 2#32 = 1#32 ∧
    opX7 0x0262F3B3#32 0xFFFFFFFB#32 0#32 = 0xFFFFFFFB#32 := by decide

/-! #### Environment call, fence, unimplemented (95 section 2.9) -/

theorem test_ecall_prints :
    (after (withA0A1 1#32 0xFFFFFFFF#32 0x00000073#32)).console = [.printInt 0xFFFFFFFF#32] ∧
    (after (withA0A1 11#32 0xFF#32 0x00000073#32)).console = [.printChar 0xFF#32] ∧
    (after (withA0A1 4#32 0xFF#32 0x00000073#32)).run = .running ∧
    (after (withA0A1 9#32 0xFF#32 0x00000073#32)).pc = 0x104#32 := by decide
theorem test_ecall_exits :
    (after (withA0A1 10#32 0xFF#32 0xC00022F3#32)).run = .terminated .ecallExit ∧
    (after (withA0A1 0x10A#32 0xFF#32 0x00000073#32)).run = .terminated (.ecallOtherExit 0x10A#32) ∧
    (after (withA0A1 0x10A#32 0xFF#32 0x00000073#32)).getReg 11 = 0#32 ∧
    (after (withA0A1 0x10A#32 0xFF#32 0x00000073#32)).pc = 0x100#32 := by decide
theorem test_fence :
    pcAfter 0x0FF0000F#32 1#32 2#32 = 0x104#32 ∧
    pcAfter 0x0000100F#32 1#32 2#32 = 0x104#32 := by decide
theorem test_unimplemented :
    pcAfter 0x40001033#32 1#32 2#32 = 0x104#32 ∧
    (after (withX5X6 1#32 2#32 0x40001033#32)).diags = [.unimplementedOpcode 0x40001033#32] := by decide

/-! #### Faults, the end of a run, launches (95 section 2.10 and section 3) -/

/-- Two bytes mapped at the pc, and no more. -/
def halfMapped : State := { idle with mem := Memory.storeHalf [] 0x100#32 0#32 }

theorem test_partial_fetch : (after halfMapped).run = .faulted ⟨.fetch, 0x100#32, 4, 0x100#32⟩ := by decide
theorem test_ran_off_end :
    (after { idle with mem := Memory.storeWord [] 0x100#32 0x00100293#32 }).run = .terminated .ranOffEnd ∧
    (after { idle with mem := Memory.storeWord [] 0x100#32 0x00100293#32 }).getReg 5 = 1#32 := by decide
theorem test_store_maps_next_pc :
    (after (({ idle with mem := [] }.setReg 6 0x100#32).placeWord 0x00732223#32)).run = .running := by decide

/-- 95 section 3 P1: the image's words read back, and the first word is what runs first. -/
def launchP1 : State := boot ⟨0#32, 0x8000#32, false⟩ [0x00500293#32, 0x00300313#32, 0x006283B3#32]

theorem test_launch :
    launchP1.run = .running ∧ launchP1.mem.readWord 8#32 = some 0x006283B3#32 ∧ launchP1.getReg 2 = 0x8000#32 ∧
    (after launchP1).getReg 5 = 5#32 := by decide

/-- D23: the same file under the two byte orders. -/
theorem test_wire_order :
    imageWords .littleEndian [0x93#8, 0x02#8, 0x50#8, 0x00#8] = some [0x00500293#32] ∧
    imageWords .bigEndian [0x93#8, 0x02#8, 0x50#8, 0x00#8] = some [0x93025000#32] := by decide

/-- A word placed at reset is what the next step runs (log entry 4). -/
theorem test_withFetchWord : (after (State.reset.withFetchWord 32 0x00500293)).getReg 5 = 5#32 := by decide

/-- 95 section 3 P7: -77 as a signed decimal. -/
theorem test_conventionalFormat : conventionalFormat (.printInt 0xFFFFFFB3#32) = "-77" := by decide

theorem test_stepResult :
    (withX5X6 7#32 7#32 0x00628863#32).stepResult = some (.terminated .ranOffEnd) ∧
    (withX5X6 0#32 0#32 0x0000006F#32).stepResult = some (.redirected 0x100#32) ∧
    (withX5X6 7#32 8#32 0x00628863#32).stepResult = some .continues := by decide

/-! ### Witnesses: states and operands that meet the hypotheses of each statement, a boundary value for each clause -/

/-! #### Encoding and memory -/

theorem witness_DecodeOfEncode : (Instr.jal 31 0x100000#21).wf = true ∧ (Instr.sra 0 31 0).wf = true := by decide
theorem witness_EncodeOfDecode : decodeWord 0xFFDFF06F#32 = .instr (.jal 0 (-4#21)) := by decide
theorem witness_TableDecodesUnambiguously :
    (Instr.row (.slli 1 1 0)) ∈ opcodeTable ∧ (Instr.row (.slli 1 1 0)).matches 0x00431293#32 = true ∧
    decodeWord 0x00431293#32 = .instr (.slli 5 6 4#5) ∧
    decodeWord 0x02001013#32 = .unimplemented 0x02001013#32 := by decide
theorem witness_MemoryReads_mapped :
    let m : Memory := [(0, 0x12#8), (1, 0x34#8), (2, 0x56#8), (0xFFFFFFFF, 0x78#8)]
    m.readByte 0xFFFFFFFF#32 = some 0x78#8 ∧ m.readByte (0xFFFFFFFF#32 + 1#32) = some 0x12#8 ∧
    m.readByte (0xFFFFFFFF#32 + 2#32) = some 0x34#8 ∧ m.readByte (0xFFFFFFFF#32 + 3#32) = some 0x56#8 := by decide
theorem witness_MemoryReads_unmapped :
    let m : Memory := [(0, 0x12#8), (1, 0x34#8), (2, 0x56#8)]
    m.readByte (2#32 + 1#32) = none ∧ m.readByte (0#32 + 3#32) = none := by decide
theorem witness_CanonicalMemoryIsUnique : Memory.wf [(0, 0#8), (0xFFFFFFFF, 0xFF#8)] := by decide
theorem witness_StepsNeverUnmap :
    step (withData 0x200#32 0x00730023#32) = .next (after (withData 0x200#32 0x00730023#32)) ∧
    (withData 0x200#32 0x00730023#32).mem.mapped 0x200#32 = true := ⟨rfl, by decide⟩
theorem witness_OnlyStoresChangeMemory :
    exec (.sb 6 7 0#12) (withData 0x200#32 0x00730023#32) = .next (after (withData 0x200#32 0x00730023#32)) ∧
    (after (withData 0x200#32 0x00730023#32)).mem.readByte 0x200#32 ≠
      (withData 0x200#32 0x00730023#32).mem.readByte 0x200#32 := ⟨rfl, by decide⟩

/-! #### Launch -/

theorem witness_LaunchLoadsImage :
    (0xFFFFFFFC#32).toNat % 4 = 0 ∧ (0xFFFFFFFC#32).toNat + 4 * [0x00000013#32].length ≤ 2 ^ 32 := by decide
theorem witness_LaunchState :
    (0#32).toNat % 4 = 0 ∧ (0#32).toNat + 4 * ([] : List Word).length ≤ 2 ^ 32 ∧
    (0xFFFFFFFC#32).toNat + 4 * [0x00000013#32].length ≤ 2 ^ 32 := by decide
theorem witness_BadLaunchesAreRefused_misaligned : (0x00000002#32).toNat % 4 ≠ 0 := by decide
theorem witness_BadLaunchesAreRefused_wraps :
    (0xFFFFFFFC#32).toNat % 4 = 0 ∧ 2 ^ 32 < (0xFFFFFFFC#32).toNat + 4 * [0x13#32, 0x13#32].length := by decide
theorem witness_BadLaunchesAreRefused_partial : [0x13#8, 0x00#8, 0x00#8].length % 4 ≠ 0 := by decide

/-! #### The step -/

theorem witness_StepRunsDecodedWord :
    (withX5X6 7#32 7#32 0x00628863#32).run = .running ∧
    (withX5X6 7#32 7#32 0x00628863#32).mem.readWord (withX5X6 7#32 7#32 0x00628863#32).pc = some 0x00628863#32 ∧
    decodeWord 0x00628863#32 = .instr (.beq 5 6 16#13) ∧
    (withX5X6 7#32 7#32 0#32).mem.readWord (withX5X6 7#32 7#32 0#32).pc = some 0#32 ∧
    decodeWord 0#32 = .unimplemented 0#32 := by decide

/-- Three bytes mapped, the last at 0xFFFFFFFF, so that the byte missing is at 0. -/
def lastBytes : State :=
  { idle with pc := 0xFFFFFFFD#32, mem := [(0xFFFFFFFD, 0#8), (0xFFFFFFFE, 0#8), (0xFFFFFFFF, 0#8)] }

theorem witness_PartialFetchFaults :
    halfMapped.run = .running ∧ halfMapped.mem.mapped halfMapped.pc = true ∧
    halfMapped.mem.mapped (halfMapped.pc + 2#32) = false ∧
    lastBytes.run = .running ∧ lastBytes.mem.mapped lastBytes.pc = true ∧
    lastBytes.mem.mapped (lastBytes.pc + 3#32) = false := by decide

theorem launchP1_inv : launchP1.Inv :=
  ⟨by decide, by decide, by decide, (by decide : launchP1.mem.mapped launchP1.pc = true)⟩

theorem reset_inv : State.reset.Inv :=
  ⟨by decide, by decide, by decide, (by decide : State.reset.mem.mapped State.reset.pc = false)⟩

theorem witness_StepsExactlyWhileRunning :
    launchP1.Inv ∧ launchP1.run = .running ∧ State.reset.Inv ∧ State.reset.run ≠ .running :=
  ⟨launchP1_inv, by decide, reset_inv, by decide⟩

/-- An exit at 0x100. -/
def exits : State := withA0A1 10#32 0#32 0x00000073#32

theorem witness_OnlyEcallTerminates :
    step exits = .next (after exits) ∧ (after exits).run = .terminated .ecallExit ∧
    TermCause.ecallExit ≠ .ranOffEnd ∧
    step halfMapped = .next (after halfMapped) ∧
    (after halfMapped).run = .faulted ⟨.fetch, 0x100#32, 4, 0x100#32⟩ := ⟨rfl, by decide, by decide, rfl, by decide⟩

/-- A jump to the unmapped 0x202 (95 section 2.10). -/
def jumpsOff : State := withX5X6 0#32 0#32 0x1020006F#32

theorem witness_EndOfRunIsUnmappedPc :
    step jumpsOff = .next (after jumpsOff) ∧ (after jumpsOff).run = .terminated .ranOffEnd ∧
    step launchP1 = .next (after launchP1) ∧ (after launchP1).run = .running := ⟨rfl, by decide, rfl, by decide⟩

theorem witness_PcAdvance_stays :
    step halfMapped = .next (after halfMapped) ∧
    (after halfMapped).run = .faulted ⟨.fetch, 0x100#32, 4, 0x100#32⟩ ∧
    step exits = .next (after exits) ∧ (after exits).run = .terminated .ecallExit := ⟨rfl, by decide, rfl, by decide⟩

/-- A nop in the last word of the address space (95 section 2.10): its next pc, 0, is unmapped. -/
def lastWord : State := { idle with pc := 0xFFFFFFFC#32 }.placeWord 0x00000013#32

theorem witness_PcAdvance_advances :
    step launchP1 = .next (after launchP1) ∧ (after launchP1).run = .running ∧
    launchP1.mem.readWord launchP1.pc = some 0x00500293#32 ∧
    (0x00500293#32).toNat % 128 ∉ [0x6F, 0x67, 0x63] ∧
    step lastWord = .next (after lastWord) ∧ (after lastWord).run = .terminated .ranOffEnd ∧
    lastWord.mem.readWord lastWord.pc = some 0x00000013#32 :=
  ⟨rfl, by decide, by decide, by decide, rfl, by decide, by decide⟩

theorem witness_StoreIsSeenByNextFetch :
    (withData 0x100#32 0x00732223#32).run = .running ∧
    (withData 0x100#32 0x00732223#32).getReg 6 + BitVec.signExtend 32 4#12 =
      (withData 0x100#32 0x00732223#32).pc + 4#32 := by decide

/-- A jump to itself (95 section 2.7). -/
def loops : State := withX5X6 0#32 0#32 0x0000006F#32

theorem witness_StepResultNamesNextPc :
    step loops = .next (after loops) ∧ (after loops).run = .running ∧
    loops.stepResult = some (.redirected 0x100#32) ∧
    step launchP1 = .next (after launchP1) ∧ (after launchP1).run = .running ∧
    launchP1.stepResult = some .continues := ⟨rfl, by decide, by decide, rfl, by decide, by decide⟩

/-! #### Branches: each condition holds somewhere and fails somewhere, at the ends of the signed and unsigned ranges -/

theorem witness_EqualityBranches :
    (∃ s : State, (s.getReg 5).toNat = (s.getReg 6).toNat) ∧ ∃ s : State, (s.getReg 5).toNat ≠ (s.getReg 6).toNat :=
  ⟨⟨withX5X6 7#32 7#32 0#32, by decide⟩, ⟨withX5X6 0x80000000#32 0#32 0#32, by decide⟩⟩
theorem witness_OrderBranches :
    (∃ s : State, (s.getReg 5).toInt < (s.getReg 6).toInt ∧ (s.getReg 5).toNat ≥ (s.getReg 6).toNat) ∧
    (∃ s : State, (s.getReg 5).toInt ≥ (s.getReg 6).toInt ∧ (s.getReg 5).toNat < (s.getReg 6).toNat) ∧
    ∃ s : State, (s.getReg 5).toInt ≥ (s.getReg 6).toInt ∧ (s.getReg 5).toNat ≥ (s.getReg 6).toNat :=
  ⟨⟨withX5X6 0x80000000#32 0x7FFFFFFF#32 0#32, by decide⟩, ⟨withX5X6 0#32 0xFFFFFFFF#32 0#32, by decide⟩,
    ⟨withX5X6 0x80000000#32 0x80000000#32 0#32, by decide⟩⟩

/-! #### Loads -/

/-- x6 = 0xFFFFFFFF, its byte and the three after it mapped across the wrap. -/
def wrapped : State :=
  { idle with mem := [(0, 0x12#8), (1, 0x34#8), (2, 0x56#8), (0xFFFFFFFF, 0x80#8)] }.setReg 6 0xFFFFFFFF#32

theorem witness_ByteLoads :
    wrapped.mem.readByte (BitVec.ofInt 32 ((wrapped.getReg 6).toNat + (0#12).toInt)) = some 0x80#8 := by decide
theorem witness_HalfLoads :
    wrapped.mem.readByte (BitVec.ofInt 32 ((wrapped.getReg 6).toNat + (0#12).toInt)) = some 0x80#8 ∧
    wrapped.mem.readByte (BitVec.ofInt 32 ((wrapped.getReg 6).toNat + (0#12).toInt + 1)) = some 0x12#8 := by decide
theorem witness_WordLoads :
    wrapped.mem.readByte (BitVec.ofInt 32 ((wrapped.getReg 6).toNat + (0#12).toInt)) = some 0x80#8 ∧
    wrapped.mem.readByte (BitVec.ofInt 32 ((wrapped.getReg 6).toNat + (0#12).toInt + 1)) = some 0x12#8 ∧
    wrapped.mem.readByte (BitVec.ofInt 32 ((wrapped.getReg 6).toNat + (0#12).toInt + 2)) = some 0x34#8 ∧
    wrapped.mem.readByte (BitVec.ofInt 32 ((wrapped.getReg 6).toNat + (0#12).toInt + 3)) = some 0x56#8 := by decide

/-- The byte, the second byte and the fourth byte missing, each with the bytes before it mapped. -/
theorem witness_UnmappedLoadsFault :
    0x000001FF#32 = BitVec.ofInt 32 (((withData 0x200#32 0#32).getReg 6).toNat + (-1#12).toInt) ∧
    (withData 0x200#32 0#32).mem.readByte 0x1FF#32 = none ∧
    0x00000203#32 = BitVec.ofInt 32 (((withData 0x200#32 0#32).getReg 6).toNat + (3#12).toInt) ∧
    (∃ k < 2, (withData 0x200#32 0#32).mem.readByte (0x203#32 + BitVec.ofNat 32 k) = none) ∧
    0x00000201#32 = BitVec.ofInt 32 (((withData 0x200#32 0#32).getReg 6).toNat + (1#12).toInt) ∧
    ∃ k < 4, (withData 0x200#32 0#32).mem.readByte (0x201#32 + BitVec.ofNat 32 k) = none :=
  ⟨by decide, by decide, by decide, ⟨1, by decide, by decide⟩, by decide, ⟨3, by decide, by decide⟩⟩

/-! #### Shifts and divisions -/

theorem witness_RegisterShifts : 31 = ((withX5X6 1#32 0xFFFFFFFF#32 0#32).getReg 6).toNat % 32 := by decide
theorem witness_DivideByZeroResults : ((withX5X6 5#32 0#32 0#32).getReg 6).toNat = 0 := by decide
theorem witness_SignedDivision :
    (-7 : Int) = ((withX5X6 (-7#32) 2#32 0#32).getReg 5).toInt ∧
    (2 : Int) = ((withX5X6 (-7#32) 2#32 0#32).getReg 6).toInt ∧ (2 : Int) ≠ 0 := by decide
theorem witness_SignedDivision_overflow :
    (-2 ^ 31 : Int) = ((withX5X6 0x80000000#32 0xFFFFFFFF#32 0#32).getReg 5).toInt ∧
    (-1 : Int) = ((withX5X6 0x80000000#32 0xFFFFFFFF#32 0#32).getReg 6).toInt ∧ (-1 : Int) ≠ 0 := by decide
theorem witness_UnsignedDivision :
    ((withX5X6 7#32 0#32 0#32).getReg 6).toNat = 0 ∧ ((withX5X6 7#32 0xFFFFFFFF#32 0#32).getReg 6).toNat ≠ 0 := by decide

/-- An overflowing pair: DIV and REM, DIVU and REMU both answer next states. -/
theorem witness_DivisionIdentity :
    let s := withX5X6 0x80000000#32 0xFFFFFFFF#32 0#32
    (7 : RegIdx) ≠ 0 ∧ (∃ t, exec (.div 7 5 6) s = .next t) ∧ (∃ u, exec (.rem 7 5 6) s = .next u) ∧
    (∃ t, exec (.divu 7 5 6) s = .next t) ∧ ∃ u, exec (.remu 7 5 6) s = .next u :=
  ⟨by decide, ⟨_, rfl⟩, ⟨_, rfl⟩, ⟨_, rfl⟩, ⟨_, rfl⟩⟩

/-! #### Environment call, unimplemented words -/

theorem witness_ContinuingServices :
    (withA0A1 1#32 5#32 0#32).getReg 10 = 1#32 ∧ (withA0A1 11#32 5#32 0#32).getReg 10 = 11#32 ∧
    (withA0A1 4#32 5#32 0#32).getReg 10 = 4#32 ∧ (withA0A1 9#32 5#32 0#32).getReg 10 = 9#32 := by decide
theorem witness_ExitServices :
    (withA0A1 10#32 5#32 0#32).getReg 10 = 10#32 ∧
    ((withA0A1 0#32 5#32 0#32).getReg 10).toNat ∉ [1, 4, 9, 10, 11] ∧
    ((withA0A1 0x10A#32 5#32 0#32).getReg 10).toNat ∉ [1, 4, 9, 10, 11] := by decide
theorem witness_SystemWords :
    (0x30200073#32).toNat % 128 = 0x73 ∧ (0x30200073#32).toNat / 2 ^ 12 % 8 = 0 ∧
    (0xC00022F3#32).toNat % 128 = 0x73 ∧ (0xC00022F3#32).toNat / 2 ^ 12 % 8 ≠ 0 := by decide
theorem witness_UnimplementedWordResult : decodeWord 0xFFFFFFFF#32 = .unimplemented 0xFFFFFFFF#32 := by decide

/-- A print of the integer 5, and of the character 5. -/
def printsInt : State := withA0A1 1#32 5#32 0x00100073#32
def printsChar : State := withA0A1 11#32 5#32 0x00000073#32

theorem witness_ConsoleIsAppendOnly :
    step printsInt = .next (after printsInt) ∧ (after printsInt).console ≠ printsInt.console ∧
    step printsChar = .next (after printsChar) ∧ (after printsChar).console ≠ printsChar.console :=
  ⟨rfl, by decide, rfl, by decide⟩

/-! #### Whole-machine rules -/

theorem witness_StepKeepsInv : launchP1.Inv ∧ step launchP1 = .next (after launchP1) := ⟨launchP1_inv, rfl⟩
theorem witness_LaunchesMeetInv :
    launch ⟨0#32, 0x8000#32, false⟩ [0x00500293#32, 0x00300313#32, 0x006283B3#32] = .next launchP1 := rfl
theorem witness_ReachableStatesNeverStick :
    launch ⟨0#32, 0x8000#32, false⟩ [0x00500293#32, 0x00300313#32, 0x006283B3#32] = .next launchP1 ∧
    Reachable launchP1 (after launchP1) := ⟨rfl, .afterStep .atStart rfl⟩
theorem witness_DiagnosticsAreNeverRead :
    step (withX5X6 0#32 0#32 0x006000EF#32) = .next (after (withX5X6 0#32 0#32 0x006000EF#32)) := rfl

end Sys2Proof.Tests
end

/-! PROOFS. The memory family (spec/20_memory.md): the round-trip law R56. A read is first put together from the bytes
it covers (`Memory.readHalf_of_bytes`, `Memory.readWord_of_bytes`), each of which the store has just written; the bytes
of a value in the order of R45 are then the value (`halfOfBytes_byteOfWord`, `wordOfBytes_byteOfWord`). -/

namespace Sys2Proof.Machine

/-! ### A half-word and a word from their mapped bytes (R43) -/

theorem Memory.readHalf_of_bytes {m : Memory} {a : Word} {b0 b1 : Byte} (h0 : m.readByte a = some b0)
    (h1 : m.readByte (a + 1) = some b1) : m.readHalf a = some (halfOfBytes b0 b1) := by
  rw [Memory.readHalf, h0, h1]

theorem Memory.readWord_of_bytes {m : Memory} {a : Word} {b0 b1 b2 b3 : Byte} (h0 : m.readByte a = some b0)
    (h1 : m.readByte (a + 1) = some b1) (h2 : m.readByte (a + 2) = some b2) (h3 : m.readByte (a + 3) = some b3) :
    m.readWord a = some (wordOfBytes b0 b1 b2 b3) := by
  rw [Memory.readWord, h0, h1, h2, h3]

/-! ### A read of the width just stored (R44, R56) -/

theorem Memory.readByte_storeByte_same (m : Memory) (a v : Word) :
    (m.storeByte a v).readByte a = some (byteOfWord v 0) := by
  rw [Memory.readByte_storeByte, if_pos rfl]

theorem Memory.readHalf_storeHalf_same (m : Memory) (a v : Word) :
    (m.storeHalf a v).readHalf a = some (v.setWidth 16) := by
  rw [← halfOfBytes_byteOfWord]
  apply Memory.readHalf_of_bytes <;> simp [Memory.readByte_storeHalf]

theorem Memory.readWord_storeWord_same (m : Memory) (a v : Word) : (m.storeWord a v).readWord a = some v := by
  conv_rhs => rw [← wordOfBytes_byteOfWord v]
  apply Memory.readWord_of_bytes <;> simp [Memory.readByte_storeWord]

/-- Settles O9: each width reads back the bytes it stored, and their arithmetic value is the truncation. -/
theorem storeThenLoad : Obligations.StoreThenLoad := by
  intro m a v
  refine ⟨m.readWord_storeWord_same a v, ?_, ?_⟩
  · rw [Memory.readHalf_storeHalf_same, BitVec.ofNat_toNat]
  · rw [Memory.readByte_storeByte_same, byteOfWord_eq, Nat.pow_zero, Nat.div_one]

end Sys2Proof.Machine

/-! PROOFS. The upper-immediate family (spec/41_upper_immediate.md). LUI and AUIPC each end in `retire`, whose effect and
frame `State.retire_spec` gives; what is left is the arithmetic of immU (`immUpper_eq`). -/

namespace Sys2Proof.Machine

/-- immU (R66) as arithmetic. -/
theorem immUpper_eq (imm : BitVec 20) : immUpper imm = BitVec.ofNat 32 (imm.toNat * 2 ^ 12) := by
  have happend : (immUpper imm).toNat = imm.toNat * 2 ^ 12 := by
    change (imm ++ 0#12).toNat = _
    rw [BitVec.toNat_append, Nat.shiftLeft_eq, BitVec.toNat_zero, Nat.or_zero]
  rw [← happend, BitVec.ofNat_toNat, BitVec.setWidth_eq]

/-- R91: the sum wraps modulo 2^32, as `BitVec.ofNat` of the exact sum does. -/
theorem pc_add_immUpper (pc : Word) (imm : BitVec 20) :
    pc + immUpper imm = BitVec.ofNat 32 (pc.toNat + imm.toNat * 2 ^ 12) := by
  rw [immUpper_eq, BitVec.ofNat_add, BitVec.ofNat_toNat, BitVec.setWidth_eq]

theorem exec_lui (s : State) (rd : RegIdx) (imm : BitVec 20) :
    exec (.lui rd imm) s = .next (s.retire rd (immUpper imm)) := rfl

theorem exec_auipc (s : State) (rd : RegIdx) (imm : BitVec 20) :
    exec (.auipc rd imm) s = .next (s.retire rd (s.pc + immUpper imm)) := rfl

/-- Settles O26: both instructions retire their value, and the value is the exact arithmetic of R90 and R91. -/
theorem upperImmediateResults : Obligations.UpperImmediateResults := by
  intro s rd imm
  constructor
  · rw [exec_lui, immUpper_eq]
    exact s.retire_spec rd _
  · rw [exec_auipc, pc_add_immUpper]
    exact s.retire_spec rd _

end Sys2Proof.Machine

/-! PROOFS. The control-transfer family (spec/42_control_transfer.md). JAL writes its link and redirects, whose effect and
frame `State.jump_spec` gives; what is left is the arithmetic of the link (`State.link_eq`) and of the target
(`State.jalTarget_eq`), both modulo 2^32. -/

namespace Sys2Proof.Machine

/-- R10, R27: a signed displacement of any width is added modulo 2^32, as `BitVec.ofInt` of the exact sum is. -/
theorem add_sext32_eq {n : Nat} (base : Word) (offset : BitVec n) :
    base + sext32 offset = BitVec.ofInt 32 (base.toNat + offset.toInt) := by
  rw [BitVec.ofInt_add, BitVec.ofInt_natCast, BitVec.ofNat_toNat, BitVec.setWidth_eq]
  rfl

theorem State.link_eq (s : State) : s.link = BitVec.ofNat 32 (s.pc.toNat + 4) := by
  rw [BitVec.ofNat_add, BitVec.ofNat_toNat, BitVec.setWidth_eq]
  rfl

theorem State.jalTarget_eq (s : State) (offset : BitVec 21) :
    s.jalTarget offset = BitVec.ofInt 32 (s.pc.toNat + offset.toInt) :=
  add_sext32_eq s.pc offset

theorem exec_jal (s : State) (rd : RegIdx) (offset : BitVec 21) :
    exec (.jal rd offset) s = .next ((s.setReg rd s.link).redirect (s.jalTarget offset)) := rfl

/-- Settles O27: JAL is the jump of `State.jump_spec`, and its link and target are the exact arithmetic of R100. -/
theorem jalResult : Obligations.JalResult := by
  intro s rd offset
  rw [exec_jal, ← s.link_eq, ← s.jalTarget_eq]
  exact s.jump_spec rd s.link (s.jalTarget offset)

end Sys2Proof.Machine

/-! PROOFS. The load and store family (spec/43_load_store.md). SB ends in `retireStore` of the memory with one byte
stored, whose effect and frame `State.storeByte_spec` gives; what is left is the arithmetic of the effective address
(`State.effAddr_eq`), modulo 2^32. -/

namespace Sys2Proof.Machine

/-- R120 as arithmetic: the one addressing mode of loads and stores. -/
theorem State.effAddr_eq (s : State) (rs1 : RegIdx) (imm : BitVec 12) :
    s.effAddr rs1 imm = BitVec.ofInt 32 ((s.getReg rs1).toNat + imm.toInt) :=
  add_sext32_eq (s.getReg rs1) imm

theorem exec_sb (s : State) (rs1 rs2 : RegIdx) (imm : BitVec 12) :
    exec (.sb rs1 rs2 imm) s = .next (s.retireStore (s.mem.storeByte (s.effAddr rs1 imm) (s.getReg rs2))) := rfl

/-- Settles O35: SB is the store of `State.storeByte_spec`, at the address of R120. -/
theorem byteStores : Obligations.ByteStores := by
  intro s rs1 rs2 imm
  rw [exec_sb, ← s.effAddr_eq]
  exact s.storeByte_spec (s.effAddr rs1 imm) (s.getReg rs2)

end Sys2Proof.Machine

/-! PROOFS. The integer register-immediate family (spec/44_integer_immediate.md). Each instruction retires one value,
and `State.retire_spec` gives its effect and frame; what is left is that value: the sign-extended immediate as a number
(`toInt_imm12`) and bit by bit (`getLsbD_imm12`), and the three shifts as products and quotients by 2^shamt. -/

namespace Sys2Proof.Machine

/-! ### The sign-extended immediate (R63) -/

theorem toInt_imm12 (imm : BitVec 12) : (imm12 imm).toInt = imm.toInt :=
  BitVec.toInt_signExtend_of_le (by decide)

/-- Bit 11, the sign, is copied to every bit above it. -/
theorem getLsbD_imm12 (imm : BitVec 12) {k : Nat} (hk : k < 32) :
    (imm12 imm).getLsbD k = imm.getLsbD (min k 11) := by
  rw [imm12, sext32, BitVec.getLsbD_signExtend, decide_eq_true hk, Bool.true_and]
  by_cases hfield : k < 12
  · rw [if_pos hfield, Nat.min_eq_left (by omega)]
  · rw [if_neg hfield, Nat.min_eq_right (by omega), BitVec.msb_eq_getLsbD_last]

/-- R140: the sum wraps modulo 2^32, as `BitVec.ofInt` of the exact signed sum does. -/
theorem add_imm12_eq (a : Word) (imm : BitVec 12) : a + imm12 imm = BitVec.ofInt 32 (a.toInt + imm.toInt) := by
  rw [BitVec.ofInt_add, BitVec.ofInt_toInt, ← toInt_imm12, BitVec.ofInt_toInt]

/-- R141: 1 exactly where the signed comparison holds, else 0. -/
theorem boolWord_lessSigned_imm12 (a : Word) (imm : BitVec 12) :
    boolWord (lessSigned a (imm12 imm)) = if a.toInt < imm.toInt then 1#32 else 0#32 := by
  simp only [boolWord, lessSigned, toInt_imm12, decide_eq_true_eq]

/-! ### Shifts as arithmetic (R146 to R148) -/

theorem shiftLeft_eq (a : Word) (sh : BitVec 5) : shiftLeft a sh = BitVec.ofNat 32 (a.toNat * 2 ^ sh.toNat) := by
  apply BitVec.eq_of_toNat_eq
  rw [shiftLeft, BitVec.toNat_shiftLeft, Nat.shiftLeft_eq, BitVec.toNat_ofNat]

theorem shiftRightLogical_eq (a : Word) (sh : BitVec 5) :
    shiftRightLogical a sh = BitVec.ofNat 32 (a.toNat / 2 ^ sh.toNat) := by
  rw [← Nat.shiftRight_eq_div_pow, ← BitVec.toNat_ushiftRight, BitVec.ofNat_toNat, BitVec.setWidth_eq]
  rfl

/-- The quotient rounds down: `Int` division by a positive number is the floor. -/
theorem shiftRightArith_eq (a : Word) (sh : BitVec 5) :
    shiftRightArith a sh = BitVec.ofInt 32 (a.toInt / 2 ^ sh.toNat) := by
  rw [shiftRightArith, BitVec.sshiftRight_eq, Int.shiftRight_eq_div_pow, Nat.cast_pow, Nat.cast_ofNat]

/-! ### The value each instruction retires -/

section
variable (s : State) (rd rs1 : RegIdx) (imm : BitVec 12) (shamt : BitVec 5)

theorem exec_addi : exec (.addi rd rs1 imm) s = .next (s.retire rd (s.getReg rs1 + imm12 imm)) := rfl

theorem exec_slti :
    exec (.slti rd rs1 imm) s = .next (s.retire rd (boolWord (lessSigned (s.getReg rs1) (imm12 imm)))) := rfl

theorem exec_xori : exec (.xori rd rs1 imm) s = .next (s.retire rd (s.getReg rs1 ^^^ imm12 imm)) := rfl

theorem exec_ori : exec (.ori rd rs1 imm) s = .next (s.retire rd (s.getReg rs1 ||| imm12 imm)) := rfl

theorem exec_andi : exec (.andi rd rs1 imm) s = .next (s.retire rd (s.getReg rs1 &&& imm12 imm)) := rfl

theorem exec_slli : exec (.slli rd rs1 shamt) s = .next (s.retire rd (shiftLeft (s.getReg rs1) shamt)) := rfl

theorem exec_srli : exec (.srli rd rs1 shamt) s = .next (s.retire rd (shiftRightLogical (s.getReg rs1) shamt)) := rfl

theorem exec_srai : exec (.srai rd rs1 shamt) s = .next (s.retire rd (shiftRightArith (s.getReg rs1) shamt)) := rfl

end

/-! ### The statements -/

/-- Settles O37: both instructions retire their value, and the value is the exact arithmetic of R140 and R141. -/
theorem addiSltiResults : Obligations.AddiSltiResults := by
  intro s rd rs1 imm
  constructor
  · rw [exec_addi, add_imm12_eq]
    exact s.retire_spec rd _
  · rw [exec_slti, boolWord_lessSigned_imm12]
    exact s.retire_spec rd _

/-- Settles O39: a bit of the result combines the same bits of the operands, and `getLsbD_imm12` gives the
immediate's. -/
theorem bitwiseImmediates : Obligations.BitwiseImmediates := by
  intro s rd rs1 imm
  refine ⟨⟨_, exec_xori s rd rs1 imm ▸ s.retire_spec rd _, fun k hk => ?_⟩,
    ⟨_, exec_ori s rd rs1 imm ▸ s.retire_spec rd _, fun k hk => ?_⟩,
    ⟨_, exec_andi s rd rs1 imm ▸ s.retire_spec rd _, fun k hk => ?_⟩⟩
  · rw [BitVec.getLsbD_xor, getLsbD_imm12 imm hk]
  · rw [BitVec.getLsbD_or, getLsbD_imm12 imm hk]
  · rw [BitVec.getLsbD_and, getLsbD_imm12 imm hk]

/-- Settles O40: each shift retires its value, and the value is a product or a quotient by 2^shamt. -/
theorem immediateShifts : Obligations.ImmediateShifts := by
  intro s rd rs1 shamt
  refine ⟨?_, ?_, ?_⟩
  · rw [exec_slli, shiftLeft_eq]
    exact s.retire_spec rd _
  · rw [exec_srli, shiftRightLogical_eq]
    exact s.retire_spec rd _
  · rw [exec_srai, shiftRightArith_eq]
    exact s.retire_spec rd _

end Sys2Proof.Machine

/-! PROOFS. The integer register-register family (spec/45_integer_register.md). Each instruction retires one value, and
`State.retire_spec` gives its effect and frame; what is left is that value: the sum and the difference modulo 2^32
(`add_eq_ofNat`, `sub_eq_ofInt`) and the comparisons as 0 or 1 (`boolWord_lessSigned`, `boolWord_lessUnsigned`). -/

namespace Sys2Proof.Machine

/-! ### Sums, differences and comparisons as arithmetic (R160, R161, R163, R164) -/

theorem add_eq_ofNat (a b : Word) : a + b = BitVec.ofNat 32 (a.toNat + b.toNat) := by
  simp only [BitVec.ofNat_add, BitVec.ofNat_toNat, BitVec.setWidth_eq]

/-- The exact difference may be negative; `BitVec.ofInt` wraps it modulo 2^32. -/
theorem sub_eq_ofInt (a b : Word) : a - b = BitVec.ofInt 32 (a.toNat - b.toNat) := by
  rw [sub_eq_add_neg a, sub_eq_add_neg, BitVec.ofInt_add, BitVec.ofInt_neg]
  simp only [BitVec.ofInt_natCast, BitVec.ofNat_toNat, BitVec.setWidth_eq]

theorem boolWord_lessSigned (a b : Word) :
    boolWord (lessSigned a b) = if a.toInt < b.toInt then 1#32 else 0#32 := by
  simp only [boolWord, lessSigned, decide_eq_true_eq]

theorem boolWord_lessUnsigned (a b : Word) :
    boolWord (lessUnsigned a b) = if a.toNat < b.toNat then 1#32 else 0#32 := by
  simp only [boolWord, lessUnsigned, decide_eq_true_eq]

/-- R164's law for x0: the words above 0, as unsigned, are those other than 0. -/
theorem boolWord_lessUnsigned_zero (b : Word) :
    boolWord (lessUnsigned 0#32 b) = if b = 0#32 then 0#32 else 1#32 := by
  have hpos : (0#32).toNat < b.toNat ↔ ¬ b = 0#32 := by
    rw [BitVec.toNat_eq, BitVec.toNat_zero, Nat.pos_iff_ne_zero]
  rw [boolWord_lessUnsigned, if_congr hpos rfl rfl, ite_not]

/-! ### The value each instruction retires -/

section
variable (s : State) (rd rs1 rs2 : RegIdx)

theorem exec_add : exec (.add rd rs1 rs2) s = .next (s.retire rd (s.getReg rs1 + s.getReg rs2)) := rfl

theorem exec_sub : exec (.sub rd rs1 rs2) s = .next (s.retire rd (s.getReg rs1 - s.getReg rs2)) := rfl

theorem exec_slt :
    exec (.slt rd rs1 rs2) s = .next (s.retire rd (boolWord (lessSigned (s.getReg rs1) (s.getReg rs2)))) := rfl

theorem exec_sltu :
    exec (.sltu rd rs1 rs2) s = .next (s.retire rd (boolWord (lessUnsigned (s.getReg rs1) (s.getReg rs2)))) := rfl

theorem exec_xor : exec (.xor rd rs1 rs2) s = .next (s.retire rd (s.getReg rs1 ^^^ s.getReg rs2)) := rfl

theorem exec_or : exec (.or rd rs1 rs2) s = .next (s.retire rd (s.getReg rs1 ||| s.getReg rs2)) := rfl

theorem exec_and : exec (.and rd rs1 rs2) s = .next (s.retire rd (s.getReg rs1 &&& s.getReg rs2)) := rfl

end

/-! ### The statements -/

/-- Settles O41: both instructions retire their value, and the value is the exact arithmetic of R160 and R161. -/
theorem addSubResults : Obligations.AddSubResults := by
  intro s rd rs1 rs2
  constructor
  · rw [exec_add, add_eq_ofNat]
    exact s.retire_spec rd _
  · rw [exec_sub, sub_eq_ofInt]
    exact s.retire_spec rd _

/-- Settles O42: each comparison retires 0 or 1; with rs1 = x0 the left operand reads as 0. -/
theorem setLessThanResults : Obligations.SetLessThanResults := by
  intro s rd rs1 rs2
  refine ⟨?_, ?_, ?_⟩
  · rw [exec_slt, boolWord_lessSigned]
    exact s.retire_spec rd _
  · rw [exec_sltu, boolWord_lessUnsigned]
    exact s.retire_spec rd _
  · rw [exec_sltu, State.getReg_zero, boolWord_lessUnsigned_zero]
    exact s.retire_spec rd _

/-- Settles O43: a bit of the result combines the same bits of the operands. -/
theorem bitwiseRegisters : Obligations.BitwiseRegisters := by
  intro s rd rs1 rs2
  refine ⟨⟨_, exec_xor s rd rs1 rs2 ▸ s.retire_spec rd _, fun k _ => ?_⟩,
    ⟨_, exec_or s rd rs1 rs2 ▸ s.retire_spec rd _, fun k _ => ?_⟩,
    ⟨_, exec_and s rd rs1 rs2 ▸ s.retire_spec rd _, fun k _ => ?_⟩⟩
  · rw [BitVec.getLsbD_xor]
  · rw [BitVec.getLsbD_or]
  · rw [BitVec.getLsbD_and]

end Sys2Proof.Machine

/-! PROOFS. Multiply and divide (spec/46_multiply_divide.md). Each instruction retires one value, and `State.retire_spec`
gives its effect and frame; what is left is that value: the high word of a product as its quotient by 2^32
(`highWord_eq`), and the two cases of unsigned division. -/

namespace Sys2Proof.Machine

/-! ### The high word of a product (R181 to R183) -/

/-- Bits 63 to 32 of an exact product, as arithmetic: the quotient rounds down, for a negative product too. -/
theorem highWord_eq (z : Int) : highWord z = BitVec.ofInt 32 (z / 2 ^ 32) := by
  apply BitVec.eq_of_toNat_eq
  rw [highWord, BitVec.extractLsb'_toNat, BitVec.toNat_ofInt, BitVec.toNat_ofInt, Nat.shiftRight_eq_div_pow]
  omega

theorem mulHighSigned_eq (a b : Word) : mulHighSigned a b = BitVec.ofInt 32 (a.toInt * b.toInt / 2 ^ 32) :=
  highWord_eq _

theorem mulHighUnsigned_eq (a b : Word) : mulHighUnsigned a b = BitVec.ofNat 32 (a.toNat * b.toNat / 2 ^ 32) := by
  rw [mulHighUnsigned, highWord_eq, ← BitVec.ofInt_natCast]
  norm_cast

/-! ### Unsigned division, by zero and not (R185, R187) -/

section
variable {b : Word} (a : Word)

theorem divUnsigned_of_zero (hb : b.toNat = 0) : divUnsigned a b = 0xFFFFFFFF#32 :=
  if_pos (BitVec.eq_of_toNat_eq hb)

theorem remUnsigned_of_zero (hb : b.toNat = 0) : remUnsigned a b = a :=
  if_pos (BitVec.eq_of_toNat_eq hb)

theorem divUnsigned_of_ne_zero (hb : b.toNat ≠ 0) : divUnsigned a b = BitVec.ofNat 32 (a.toNat / b.toNat) :=
  if_neg (mt (congrArg BitVec.toNat) hb)

theorem remUnsigned_of_ne_zero (hb : b.toNat ≠ 0) : remUnsigned a b = BitVec.ofNat 32 (a.toNat % b.toNat) :=
  if_neg (mt (congrArg BitVec.toNat) hb)

end

/-! ### The value each instruction retires -/

section
variable (s : State) (rd rs1 rs2 : RegIdx)

theorem exec_mul :
    exec (.mul rd rs1 rs2) s =
      .next (s.retire rd (BitVec.ofInt 32 ((s.getReg rs1).toInt * (s.getReg rs2).toInt))) := rfl

theorem exec_mulh :
    exec (.mulh rd rs1 rs2) s = .next (s.retire rd (mulHighSigned (s.getReg rs1) (s.getReg rs2))) := rfl

theorem exec_mulhu :
    exec (.mulhu rd rs1 rs2) s = .next (s.retire rd (mulHighUnsigned (s.getReg rs1) (s.getReg rs2))) := rfl

theorem exec_divu :
    exec (.divu rd rs1 rs2) s = .next (s.retire rd (divUnsigned (s.getReg rs1) (s.getReg rs2))) := rfl

theorem exec_remu :
    exec (.remu rd rs1 rs2) s = .next (s.retire rd (remUnsigned (s.getReg rs1) (s.getReg rs2))) := rfl

end

/-! ### The statements -/

/-- Settles O45: MUL's value is the truncated product itself; MULH's and MULHU's is the high word, a quotient by
2^32. -/
theorem multiplyResults : Obligations.MultiplyResults := by
  intro s rd rs1 rs2
  refine ⟨?_, ?_, ?_⟩
  · rw [exec_mul]
    exact s.retire_spec rd _
  · rw [exec_mulh, mulHighSigned_eq]
    exact s.retire_spec rd _
  · rw [exec_mulhu, mulHighUnsigned_eq]
    exact s.retire_spec rd _

/-- Settles O49: by zero the two fixed values; else the `Nat` quotient and remainder, which are those of the division
algorithm. -/
theorem unsignedDivision : Obligations.UnsignedDivision := by
  intro s rd rs1 rs2
  refine ⟨fun hzero => ⟨?_, ?_⟩, fun hne =>
    ⟨_, _, (Nat.div_add_mod' _ _).symm, Nat.mod_lt _ (Nat.pos_of_ne_zero hne), ?_, ?_⟩⟩
  · rw [exec_divu, divUnsigned_of_zero _ hzero]
    exact s.retire_spec rd _
  · rw [exec_remu, remUnsigned_of_zero _ hzero]
    exact s.retire_spec rd _
  · rw [exec_divu, divUnsigned_of_ne_zero _ hne]
    exact s.retire_spec rd _
  · rw [exec_remu, remUnsigned_of_ne_zero _ hne]
    exact s.retire_spec rd _

end Sys2Proof.Machine

/-! PROOFS. The system family (spec/47_system.md). FENCE is `State.advance`, whose effect and frame `State.advance_spec`
gives. That only an environment call ends a run for another cause than running off mapped memory (R206) needs two facts:
a next state that goes on to a new pc can only run off the end (`ExecShape.ecall_of_terminated`), and the decoder reads
an instruction only from a word with the opcode of the instruction's encoding (`decodeWord_hasOpcode`). -/

namespace Sys2Proof

/-! ### The decoder keeps the opcode (R69) -/

/-- The opcode of a FENCE or ECALL word. -/
theorem opcodeOf_ignored_append (ignored : BitVec 25) (opcode : BitVec 7) : opcodeOf (ignored ++ opcode) = opcode := by
  apply BitVec.eq_of_getLsbD_eq
  intro i hi
  simp [opcodeOf, ignored_bit, hi]

/-- The encoding of a decoded instruction has this opcode; the unimplemented path asks nothing. -/
def Decoded.HasOpcode (opcode : BitVec 7) : Decoded → Prop
  | .instr i => opcodeOf (encode i) = opcode
  | .unimplemented _ => True

@[simp] theorem Decoded.hasOpcode_instr (opcode : BitVec 7) (i : Instr) :
    (Decoded.instr i).HasOpcode opcode ↔ opcodeOf (encode i) = opcode := Iff.rfl

@[simp] theorem Decoded.hasOpcode_unimplemented (opcode : BitVec 7) (w : Word) :
    (Decoded.unimplemented w).HasOpcode opcode := True.intro

section
variable (w : Word)

theorem decodeJalr_hasOpcode : (decodeJalr w).HasOpcode 0x67#7 := by
  unfold decodeJalr
  split <;> simp [encode]

theorem decodeBranch_hasOpcode : (decodeBranch w).HasOpcode 0x63#7 := by
  unfold decodeBranch
  split <;> simp [encode]

theorem decodeLoad_hasOpcode : (decodeLoad w).HasOpcode 0x03#7 := by
  unfold decodeLoad
  split <;> simp [encode]

theorem decodeStore_hasOpcode : (decodeStore w).HasOpcode 0x23#7 := by
  unfold decodeStore
  split <;> simp [encode]

/-- The shifts split once more, on funct7. -/
theorem decodeOpImm_hasOpcode : (decodeOpImm w).HasOpcode 0x13#7 := by
  unfold decodeOpImm
  split
  case h_7 | h_8 => split <;> simp [encode, encShift]
  all_goals simp [encode]

theorem decodeOpBase_hasOpcode : (decodeOpBase w).HasOpcode 0x33#7 := by
  unfold decodeOpBase
  split <;> simp [encode]

theorem decodeOpAlt_hasOpcode : (decodeOpAlt w).HasOpcode 0x33#7 := by
  unfold decodeOpAlt
  split <;> simp [encode]

theorem decodeOpMulDiv_hasOpcode : (decodeOpMulDiv w).HasOpcode 0x33#7 := by
  unfold decodeOpMulDiv
  split <;> simp [encode]

theorem decodeOp_hasOpcode : (decodeOp w).HasOpcode 0x33#7 := by
  unfold decodeOp
  split
  · exact decodeOpBase_hasOpcode w
  · exact decodeOpAlt_hasOpcode w
  · exact decodeOpMulDiv_hasOpcode w
  · exact Decoded.hasOpcode_unimplemented _ w

/-- The decoder dispatches on the opcode first, so what it reads has the word's own. -/
theorem decodeWord_hasOpcode : (decodeWord w).HasOpcode (opcodeOf w) := by
  unfold decodeWord
  split
  case h_4 hop => exact hop ▸ decodeJalr_hasOpcode w
  case h_5 hop => exact hop ▸ decodeBranch_hasOpcode w
  case h_6 hop => exact hop ▸ decodeLoad_hasOpcode w
  case h_7 hop => exact hop ▸ decodeStore_hasOpcode w
  case h_8 hop => exact hop ▸ decodeOpImm_hasOpcode w
  case h_9 hop => exact hop ▸ decodeOp_hasOpcode w
  case h_12 => exact Decoded.hasOpcode_unimplemented _ w
  case h_1 hop | h_2 hop | h_3 hop => simp [hop, encode]
  case h_10 hop | h_11 hop => exact hop ▸ opcodeOf_ignored_append _ _

end

theorem opcodeOf_toNat (w : Word) : (opcodeOf w).toNat = w.toNat % 128 := by
  rw [opcodeOf, BitVec.extractLsb'_toNat, Nat.shiftRight_zero]

/-- Only words of opcode 0x73 decode to the environment call (R78). -/
theorem opcode_of_decode_ecall {w : Word} {ignored : BitVec 25} (h : decodeWord w = .instr (.ecall ignored)) :
    w.toNat % 128 = 0x73 := by
  have hop := decodeWord_hasOpcode w
  rw [h, Decoded.hasOpcode_instr, encode, opcodeOf_ignored_append] at hop
  rw [← opcodeOf_toNat, ← hop]
  rfl

end Sys2Proof

namespace Sys2Proof.Machine

/-! ### Why a step terminates a run (R206, R243) -/

/-- A step that ends at a new pc terminates the run only by running off mapped memory. -/
theorem EndsAt.cause_eq_ranOffEnd {s t : State} {next : Word} {c : TermCause} (he : EndsAt s t next)
    (hrun : s.run = .running) (ht : t.run = .terminated c) : c = .ranOffEnd := by
  obtain ⟨-, hend⟩ := he
  rw [ht, hrun] at hend
  split at hend
  · cases hend
  · cases hend
    rfl

theorem State.goto_cause {s : State} {next : Word} {c : TermCause} (hrun : s.run = .running)
    (ht : (s.goto next).run = .terminated c) : c = .ranOffEnd := by
  obtain ⟨-, -, -, he⟩ := s.goto_spec next
  exact he.cause_eq_ranOffEnd hrun ht

theorem State.retireStore_cause {s : State} {m : Memory} {c : TermCause} (hrun : s.run = .running)
    (ht : (s.retireStore m).run = .terminated c) : c = .ranOffEnd :=
  State.goto_cause (s := { s with mem := m }) hrun ht

theorem State.redirect_cause {s : State} {target : Word} {c : TermCause} (hrun : s.run = .running)
    (ht : (s.redirect target).run = .terminated c) : c = .ranOffEnd := by
  obtain ⟨-, -, -, -, he⟩ := s.redirect_spec target
  exact he.cause_eq_ranOffEnd hrun ht

/-- Every shape of next state but those of the environment call goes on to a new pc or faults. -/
theorem ExecShape.ecall_of_terminated {i : Instr} {s t : State} {c : TermCause} (shape : ExecShape i s t)
    (hrun : s.run = .running) (ht : t.run = .terminated c) (hc : c ≠ .ranOffEnd) :
    ∃ ignored, i = .ecall ignored := by
  cases shape with
  | retire rd v => exact absurd (State.goto_cause ((s.setReg_run rd v).trans hrun) ht) hc
  | advance => exact absurd (State.goto_cause hrun ht) hc
  | jump rd target _ => exact absurd (State.redirect_cause ((s.setReg_run rd s.link).trans hrun) ht) hc
  | branch target _ => exact absurd (State.redirect_cause hrun ht) hc
  | storeByte | storeHalf | storeWord => exact absurd (State.retireStore_cause hrun ht) hc
  | loadFault addr n _ _ => cases ht
  | print ignored _ ecall | exit ignored ecall _ | otherExit ignored ecall _ => exact ⟨ignored, ecall⟩

/-- A step that ends the run otherwise than by running off mapped memory ran the environment call. -/
theorem step_ecall_of_terminated {s t : State} {c : TermCause} (h : step s = .next t) (ht : t.run = .terminated c)
    (hc : c ≠ .ranOffEnd) : ∃ w ignored, s.fetchWord = some w ∧ decodeWord w = .instr (.ecall ignored) := by
  obtain ⟨hrun, -, ⟨-, rfl⟩ | ⟨w, i, hfetch, hdecode, hexec⟩ | ⟨w, w', -, -, rfl⟩⟩ := step_cases h
  · cases ht
  · obtain ⟨t', hexec', shape⟩ := exec_shape i s
    cases hexec.symm.trans hexec'
    obtain ⟨ignored, rfl⟩ := shape.ecall_of_terminated hrun ht hc
    exact ⟨w, ignored, hfetch, hdecode⟩
  · exact absurd (State.goto_cause (s := s.diagnose _) hrun ht) hc

theorem exec_fence (s : State) (ignored : BitVec 25) : exec (.fence ignored) s = .next s.advance := rfl

/-! ### The statements -/

/-- Settles O21: the word that ended the run is an environment call's, so its opcode is 0x73; and `step_cases` gives a
step from a `running` state only. -/
theorem onlyEcallTerminates : Obligations.OnlyEcallTerminates := by
  intro s t h
  constructor
  · intro c ht hc
    obtain ⟨w, ignored, hfetch, hdecode⟩ := step_ecall_of_terminated h ht hc
    exact ⟨w, hfetch, opcode_of_decode_ecall hdecode⟩
  · intro r ht
    refine ⟨by rw [State.normalEnd, ht], fun u hu => ?_⟩
    obtain ⟨hrun, -⟩ := step_cases hu
    cases ht.symm.trans hrun

/-- Settles O54: FENCE ends in `advance`, whatever its ignored bits. -/
theorem fenceResult : Obligations.FenceResult := by
  intro s ignored
  rw [exec_fence]
  exact s.advance_spec

end Sys2Proof.Machine

/-! PROOFS. The exceptions family (spec/60_exceptions.md). Division by zero is no exception but a value like any other:
`unsignedDivision` has it for DIVU and REMU, and DIV and REM retire their zero case, which comes before the overflow
check. -/

namespace Sys2Proof.Machine

/-! ### Signed division by zero (R225) -/

section
variable {b : Word} (a : Word)

theorem divSigned_of_zero (hb : b.toNat = 0) : divSigned a b = 0xFFFFFFFF#32 :=
  if_pos (BitVec.eq_of_toNat_eq hb)

theorem remSigned_of_zero (hb : b.toNat = 0) : remSigned a b = a :=
  if_pos (BitVec.eq_of_toNat_eq hb)

end

/-! ### The value each instruction retires -/

section
variable (s : State) (rd rs1 rs2 : RegIdx)

theorem exec_div :
    exec (.div rd rs1 rs2) s = .next (s.retire rd (divSigned (s.getReg rs1) (s.getReg rs2))) := rfl

theorem exec_rem :
    exec (.rem rd rs1 rs2) s = .next (s.retire rd (remSigned (s.getReg rs1) (s.getReg rs2))) := rfl

end

/-! ### The statement -/

/-- Settles O47: with R225's -1 read as the word of all ones, the unsigned half is `unsignedDivision`'s zero case. -/
theorem divideByZeroResults : Obligations.DivideByZeroResults := by
  intro s rd rs1 rs2 hzero
  have minusOne : -1#32 = 0xFFFFFFFF#32 := by decide
  obtain ⟨divuResult, remuResult⟩ := (unsignedDivision s rd rs1 rs2).1 hzero
  rw [minusOne]
  refine ⟨?_, divuResult, ?_, remuResult⟩
  · rw [exec_div, divSigned_of_zero _ hzero]
    exact s.retire_spec rd _
  · rw [exec_rem, remSigned_of_zero _ hzero]
    exact s.retire_spec rd _

end Sys2Proof.Machine

/-! PROOFS. Encoding and decoding (spec/30_encoding.md): the round trip both ways, first decode of encode, then encode
of decode. The frozen laws give the fields of each format's encoding; here stand the fields they leave out, each
format's word from its fields (`encR_fields` and its like), and the decoder once its opcode is known
(`decodeWord_of_jalr` and its like). -/

namespace Sys2Proof

/-! ### The remaining fields of an encoding (R61 to R68) -/

section
variable (funct7 opcode : BitVec 7) (rs2 rs1 rd : RegIdx) (funct3 : BitVec 3) (shamt : BitVec 5) (w : Word)

@[simp] theorem opcodeOf_encShift : opcodeOf (encShift funct7 shamt rs1 funct3 rd) = 0x13#7 := opcodeOf_encI _ _ _ _ _

@[simp] theorem rdOf_encShift : rdOf (encShift funct7 shamt rs1 funct3 rd) = rd := rdOf_encI _ _ _ _ _

@[simp] theorem funct3Of_encShift : funct3Of (encShift funct7 shamt rs1 funct3 rd) = funct3 := funct3Of_encI _ _ _ _ _

@[simp] theorem rs1Of_encShift : rs1Of (encShift funct7 shamt rs1 funct3 rd) = rs1 := rs1Of_encI _ _ _ _ _

@[simp] theorem funct7Of_encShift : funct7Of (encShift funct7 shamt rs1 funct3 rd) = funct7 := by
  apply BitVec.eq_of_getLsbD_eq
  intro i hi
  interval_cases i <;>
    simp only [funct7Of, encShift, BitVec.getLsbD_extractLsb', encI_bit, shiftField_bit] <;> simp

@[simp] theorem shamtOf_encShift : shamtOf (encShift funct7 shamt rs1 funct3 rd) = shamt := by
  apply BitVec.eq_of_getLsbD_eq
  intro i hi
  interval_cases i <;>
    simp only [shamtOf, encShift, BitVec.getLsbD_extractLsb', encI_bit, shiftField_bit] <;> simp

@[simp] theorem ignoredOf_ignored_append (ignored : BitVec 25) : ignoredOf (ignored ++ opcode) = ignored := by
  apply BitVec.eq_of_getLsbD_eq
  intro i hi
  simp [ignoredOf, ignored_bit, hi]

/-- Bit 0 of a branch offset is not encoded, so the offset comes back only where it is even (R65). -/
theorem fieldB_encB {offset : BitVec 13} (h : evenOffset offset = true) :
    fieldB (encB offset rs2 rs1 funct3) = offset := by
  have hzero : offset[0] = false := by simpa [evenOffset] using h
  apply BitVec.eq_of_getLsbD_eq
  intro i hi
  interval_cases i <;> simp only [fieldB_bit, BitVec.getLsbD_extractLsb', encB_bit] <;> simp [hzero]

/-- Bit 0 of a jump offset is not encoded either (R67). -/
theorem fieldJ_encJ {offset : BitVec 21} (h : evenOffset offset = true) : fieldJ (encJ offset rd) = offset := by
  have hzero : offset[0] = false := by simpa [evenOffset] using h
  apply BitVec.eq_of_getLsbD_eq
  intro i hi
  interval_cases i <;> simp only [fieldJ_bit, BitVec.getLsbD_extractLsb', encJ_bit] <;> simp [hzero]

theorem evenOffset_fieldB : evenOffset (fieldB w) = true := by
  rw [evenOffset, fieldB_bit]
  rfl

theorem evenOffset_fieldJ : evenOffset (fieldJ w) = true := by
  rw [evenOffset, fieldJ_bit]
  rfl

end

/-! ### The decoder where the opcode is known (R69) -/

section
variable {w : Word}

theorem decodeWord_of_lui (h : opcodeOf w = 0x37#7) : decodeWord w = .instr (.lui (rdOf w) (fieldU w)) := by
  simp [decodeWord, h]

theorem decodeWord_of_auipc (h : opcodeOf w = 0x17#7) : decodeWord w = .instr (.auipc (rdOf w) (fieldU w)) := by
  simp [decodeWord, h]

theorem decodeWord_of_jal (h : opcodeOf w = 0x6F#7) : decodeWord w = .instr (.jal (rdOf w) (fieldJ w)) := by
  simp [decodeWord, h]

theorem decodeWord_of_jalr (h : opcodeOf w = 0x67#7) : decodeWord w = decodeJalr w := by
  simp [decodeWord, h]

theorem decodeWord_of_branch (h : opcodeOf w = 0x63#7) : decodeWord w = decodeBranch w := by
  simp [decodeWord, h]

theorem decodeWord_of_load (h : opcodeOf w = 0x03#7) : decodeWord w = decodeLoad w := by
  simp [decodeWord, h]

theorem decodeWord_of_store (h : opcodeOf w = 0x23#7) : decodeWord w = decodeStore w := by
  simp [decodeWord, h]

theorem decodeWord_of_opImm (h : opcodeOf w = 0x13#7) : decodeWord w = decodeOpImm w := by
  simp [decodeWord, h]

theorem decodeWord_of_op (h : opcodeOf w = 0x33#7) : decodeWord w = decodeOp w := by
  simp [decodeWord, h]

theorem decodeWord_of_fence (h : opcodeOf w = 0x0F#7) : decodeWord w = .instr (.fence (ignoredOf w)) := by
  simp [decodeWord, h]

theorem decodeWord_of_system (h : opcodeOf w = 0x73#7) : decodeWord w = .instr (.ecall (ignoredOf w)) := by
  simp [decodeWord, h]

theorem decodeOp_of_base (h : funct7Of w = 0b0000000#7) : decodeOp w = decodeOpBase w := by
  simp [decodeOp, h]

theorem decodeOp_of_alt (h : funct7Of w = 0b0100000#7) : decodeOp w = decodeOpAlt w := by
  simp [decodeOp, h]

theorem decodeOp_of_mulDiv (h : funct7Of w = 0b0000001#7) : decodeOp w = decodeOpMulDiv w := by
  simp [decodeOp, h]

end

/-! ### Decode of encode -/

section
variable (rs2 rs1 rd : RegIdx) (funct3 : BitVec 3) (imm : BitVec 12)

theorem decodeWord_encI_load :
    decodeWord (encI imm rs1 funct3 rd 0x03#7) = decodeLoad (encI imm rs1 funct3 rd 0x03#7) :=
  decodeWord_of_load (opcodeOf_encI _ _ _ _ _)

theorem decodeWord_encI_opImm :
    decodeWord (encI imm rs1 funct3 rd 0x13#7) = decodeOpImm (encI imm rs1 funct3 rd 0x13#7) :=
  decodeWord_of_opImm (opcodeOf_encI _ _ _ _ _)

theorem decodeWord_encShift (funct7 : BitVec 7) (shamt : BitVec 5) :
    decodeWord (encShift funct7 shamt rs1 funct3 rd) = decodeOpImm (encShift funct7 shamt rs1 funct3 rd) :=
  decodeWord_of_opImm (opcodeOf_encShift _ _ _ _ _)

theorem decodeWord_encS : decodeWord (encS imm rs2 rs1 funct3) = decodeStore (encS imm rs2 rs1 funct3) :=
  decodeWord_of_store (opcodeOf_encS _ _ _ _)

theorem decodeWord_encB (offset : BitVec 13) :
    decodeWord (encB offset rs2 rs1 funct3) = decodeBranch (encB offset rs2 rs1 funct3) :=
  decodeWord_of_branch (opcodeOf_encB _ _ _ _)

theorem decodeWord_encR_base :
    decodeWord (encR 0b0000000#7 rs2 rs1 funct3 rd 0x33#7) = decodeOpBase (encR 0b0000000#7 rs2 rs1 funct3 rd 0x33#7) :=
  (decodeWord_of_op (opcodeOf_encR _ _ _ _ _ _)).trans (decodeOp_of_base (funct7Of_encR _ _ _ _ _ _))

theorem decodeWord_encR_alt :
    decodeWord (encR 0b0100000#7 rs2 rs1 funct3 rd 0x33#7) = decodeOpAlt (encR 0b0100000#7 rs2 rs1 funct3 rd 0x33#7) :=
  (decodeWord_of_op (opcodeOf_encR _ _ _ _ _ _)).trans (decodeOp_of_alt (funct7Of_encR _ _ _ _ _ _))

theorem decodeWord_encR_mulDiv :
    decodeWord (encR 0b0000001#7 rs2 rs1 funct3 rd 0x33#7) =
      decodeOpMulDiv (encR 0b0000001#7 rs2 rs1 funct3 rd 0x33#7) :=
  (decodeWord_of_op (opcodeOf_encR _ _ _ _ _ _)).trans (decodeOp_of_mulDiv (funct7Of_encR _ _ _ _ _ _))

end

/-- Settles O4: the encoding's opcode picks the group, its funct3 and funct7 the instruction, and its fields are the
operands; a branch or jump offset needs to be even. -/
theorem decodeOfEncode : Obligations.DecodeOfEncode := by
  intro i hwf
  cases i with
  | lui | auipc => simp [encode, decodeWord]
  | jal => simp [encode, decodeWord, fieldJ_encJ _ hwf]
  | jalr => simp [encode, decodeWord, decodeJalr]
  | beq | bne | blt | bge | bltu | bgeu => simp [encode, decodeWord_encB, decodeBranch, fieldB_encB _ _ _ hwf]
  | lb | lh | lw | lbu | lhu => simp [encode, decodeWord_encI_load, decodeLoad]
  | sb | sh | sw => simp [encode, decodeWord_encS, decodeStore]
  | addi | slti | sltiu | xori | ori | andi => simp [encode, decodeWord_encI_opImm, decodeOpImm]
  | slli | srli | srai => simp [encode, decodeWord_encShift, decodeOpImm]
  | add | sll | slt | sltu | xor | srl | or | and => simp [encode, decodeWord_encR_base, decodeOpBase]
  | sub | sra => simp [encode, decodeWord_encR_alt, decodeOpAlt]
  | mul | mulh | mulhsu | mulhu | div | divu | rem | remu => simp [encode, decodeWord_encR_mulDiv, decodeOpMulDiv]
  | fence | ecall => simp [encode, decodeWord, opcodeOf_ignored_append]

/-! ### A word from its fields (R62) -/

theorem regBits_rdOf (w : Word) : regBits (rdOf w) = w.extractLsb' 7 5 := rfl

theorem regBits_rs1Of (w : Word) : regBits (rs1Of w) = w.extractLsb' 15 5 := rfl

theorem regBits_rs2Of (w : Word) : regBits (rs2Of w) = w.extractLsb' 20 5 := rfl

section
variable {w : Word} {opcode funct7 : BitVec 7} {funct3 : BitVec 3}

theorem encR_fields (h7 : funct7Of w = funct7) (h3 : funct3Of w = funct3) (hop : opcodeOf w = opcode) :
    encR funct7 (rs2Of w) (rs1Of w) funct3 (rdOf w) opcode = w := by
  subst h7 h3 hop
  apply BitVec.eq_of_getLsbD_eq
  intro i hi
  rw [encR_bit]
  interval_cases i <;> simp [opcodeOf, regBits_rdOf, funct3Of, regBits_rs1Of, regBits_rs2Of, funct7Of]

theorem encI_fields (h3 : funct3Of w = funct3) (hop : opcodeOf w = opcode) :
    encI (fieldI w) (rs1Of w) funct3 (rdOf w) opcode = w := by
  subst h3 hop
  apply BitVec.eq_of_getLsbD_eq
  intro i hi
  rw [encI_bit]
  interval_cases i <;> simp [opcodeOf, regBits_rdOf, funct3Of, regBits_rs1Of, fieldI]

/-- The I-immediate of a shift is funct7 and the shift amount (R68). -/
theorem funct7Of_append_shamtOf (w : Word) : (funct7Of w ++ shamtOf w : BitVec 12) = fieldI w := by
  apply BitVec.eq_of_getLsbD_eq
  intro i hi
  rw [shiftField_bit]
  interval_cases i <;> simp [funct7Of, shamtOf, fieldI]

theorem encShift_fields (h7 : funct7Of w = funct7) (h3 : funct3Of w = funct3) (hop : opcodeOf w = 0x13#7) :
    encShift funct7 (shamtOf w) (rs1Of w) funct3 (rdOf w) = w := by
  rw [encShift, ← h7, funct7Of_append_shamtOf, encI_fields h3 hop]

theorem encS_fields (h3 : funct3Of w = funct3) (hop : opcodeOf w = 0x23#7) :
    encS (fieldS w) (rs2Of w) (rs1Of w) funct3 = w := by
  subst h3
  apply BitVec.eq_of_getLsbD_eq
  intro i hi
  rw [encS_bit, ← hop]
  interval_cases i <;>
    simp only [opcodeOf, funct3Of, regBits_rs1Of, regBits_rs2Of, fieldS_bit, BitVec.getLsbD_extractLsb'] <;> simp

theorem encB_fields (h3 : funct3Of w = funct3) (hop : opcodeOf w = 0x63#7) :
    encB (fieldB w) (rs2Of w) (rs1Of w) funct3 = w := by
  subst h3
  apply BitVec.eq_of_getLsbD_eq
  intro i hi
  rw [encB_bit, ← hop]
  interval_cases i <;>
    simp only [opcodeOf, funct3Of, regBits_rs1Of, regBits_rs2Of, fieldB_bit, BitVec.getLsbD_extractLsb'] <;> simp

theorem encU_fields (hop : opcodeOf w = opcode) : encU (fieldU w) (rdOf w) opcode = w := by
  subst hop
  apply BitVec.eq_of_getLsbD_eq
  intro i hi
  rw [encU_bit]
  interval_cases i <;> simp [opcodeOf, regBits_rdOf, fieldU]

theorem encJ_fields (hop : opcodeOf w = 0x6F#7) : encJ (fieldJ w) (rdOf w) = w := by
  apply BitVec.eq_of_getLsbD_eq
  intro i hi
  rw [encJ_bit, ← hop]
  interval_cases i <;>
    simp only [opcodeOf, regBits_rdOf, fieldJ_bit, BitVec.getLsbD_extractLsb'] <;> simp

theorem ignoredOf_append (hop : opcodeOf w = opcode) : (ignoredOf w ++ opcode : Word) = w := by
  subst hop
  apply BitVec.eq_of_getLsbD_eq
  intro i hi
  rw [ignored_bit]
  interval_cases i <;> simp [opcodeOf, ignoredOf]

end

/-! ### Encode of decode -/

/-- The decoder loses nothing of `w`: an instruction is well formed and encodes to `w`, and the unimplemented path keeps
the whole word (D37). -/
def Decoded.Keeps (w : Word) : Decoded → Prop
  | .instr i => i.wf = true ∧ encode i = w
  | .unimplemented w' => w' = w

/-- The funct3 values end at 111: seven tests decide the eighth. -/
theorem funct3_eq_seven {f : BitVec 3} (h0 : f ≠ 0b000#3) (h1 : f ≠ 0b001#3) (h2 : f ≠ 0b010#3) (h3 : f ≠ 0b011#3)
    (h4 : f ≠ 0b100#3) (h5 : f ≠ 0b101#3) (h6 : f ≠ 0b110#3) : f = 0b111#3 := by
  bv_omega

/-- The one funct3 value the tests of `decodeOpImm` leave over. -/
theorem funct3_eq_five {f : BitVec 3} (h0 : f ≠ 0b000#3) (h2 : f ≠ 0b010#3) (h3 : f ≠ 0b011#3) (h4 : f ≠ 0b100#3)
    (h6 : f ≠ 0b110#3) (h7 : f ≠ 0b111#3) (h1 : f ≠ 0b001#3) : f = 0b101#3 := by
  bv_omega

section
variable {w : Word}

theorem decodeJalr_keeps (hop : opcodeOf w = 0x67#7) : (decodeJalr w).Keeps w := by
  unfold decodeJalr
  split
  case h_1 h3 => exact ⟨rfl, encI_fields h3 hop⟩
  case h_2 => rfl

theorem decodeBranch_keeps (hop : opcodeOf w = 0x63#7) : (decodeBranch w).Keeps w := by
  unfold decodeBranch
  split
  case h_7 => rfl
  all_goals exact ⟨evenOffset_fieldB w, encB_fields ‹_› hop⟩

theorem decodeLoad_keeps (hop : opcodeOf w = 0x03#7) : (decodeLoad w).Keeps w := by
  unfold decodeLoad
  split
  case h_6 => rfl
  all_goals exact ⟨rfl, encI_fields ‹_› hop⟩

theorem decodeStore_keeps (hop : opcodeOf w = 0x23#7) : (decodeStore w).Keeps w := by
  unfold decodeStore
  split
  case h_4 => rfl
  all_goals exact ⟨rfl, encS_fields ‹_› hop⟩

theorem decodeOpImm_keeps (hop : opcodeOf w = 0x13#7) : (decodeOpImm w).Keeps w := by
  unfold decodeOpImm
  split
  case h_7 h3 =>
    split
    · exact ⟨rfl, encShift_fields ‹_› h3 hop⟩
    · rfl
  case h_8 h0 h2 h3 h4 h6 h7 h1 =>
    have h5 := funct3_eq_five h0 h2 h3 h4 h6 h7 h1
    split
    · exact ⟨rfl, encShift_fields ‹_› h5 hop⟩
    · exact ⟨rfl, encShift_fields ‹_› h5 hop⟩
    · rfl
  all_goals exact ⟨rfl, encI_fields ‹_› hop⟩

theorem decodeOpBase_keeps (hop : opcodeOf w = 0x33#7) (h7 : funct7Of w = 0b0000000#7) :
    (decodeOpBase w).Keeps w := by
  unfold decodeOpBase
  split
  case h_8 n0 n1 n2 n3 n4 n5 n6 => exact ⟨rfl, encR_fields h7 (funct3_eq_seven n0 n1 n2 n3 n4 n5 n6) hop⟩
  all_goals exact ⟨rfl, encR_fields h7 ‹_› hop⟩

theorem decodeOpAlt_keeps (hop : opcodeOf w = 0x33#7) (h7 : funct7Of w = 0b0100000#7) : (decodeOpAlt w).Keeps w := by
  unfold decodeOpAlt
  split
  case h_3 => rfl
  all_goals exact ⟨rfl, encR_fields h7 ‹_› hop⟩

theorem decodeOpMulDiv_keeps (hop : opcodeOf w = 0x33#7) (h7 : funct7Of w = 0b0000001#7) :
    (decodeOpMulDiv w).Keeps w := by
  unfold decodeOpMulDiv
  split
  case h_8 n0 n1 n2 n3 n4 n5 n6 => exact ⟨rfl, encR_fields h7 (funct3_eq_seven n0 n1 n2 n3 n4 n5 n6) hop⟩
  all_goals exact ⟨rfl, encR_fields h7 ‹_› hop⟩

theorem decodeOp_keeps (hop : opcodeOf w = 0x33#7) : (decodeOp w).Keeps w := by
  unfold decodeOp
  split
  case h_1 h7 => exact decodeOpBase_keeps hop h7
  case h_2 h7 => exact decodeOpAlt_keeps hop h7
  case h_3 h7 => exact decodeOpMulDiv_keeps hop h7
  case h_4 => rfl

end

theorem decodeWord_keeps (w : Word) : (decodeWord w).Keeps w := by
  unfold decodeWord
  split
  case h_1 hop | h_2 hop => exact ⟨rfl, encU_fields hop⟩
  case h_3 hop => exact ⟨evenOffset_fieldJ w, encJ_fields hop⟩
  case h_4 hop => exact decodeJalr_keeps hop
  case h_5 hop => exact decodeBranch_keeps hop
  case h_6 hop => exact decodeLoad_keeps hop
  case h_7 hop => exact decodeStore_keeps hop
  case h_8 hop => exact decodeOpImm_keeps hop
  case h_9 hop => exact decodeOp_keeps hop
  case h_10 hop | h_11 hop => exact ⟨rfl, ignoredOf_append hop⟩
  case h_12 => rfl

/-- Settles O5: each format's word is put together again from the fields the decoder took (`decodeWord_keeps`). -/
theorem encodeOfDecode : Obligations.EncodeOfDecode := by
  intro w i h
  have hkeeps := decodeWord_keeps w
  rwa [h] at hkeeps

end Sys2Proof

/-! PROOFS. The whole machine: every step keeps the invariant, and no step reads the diagnostics log (spec/10_state.md
R31, spec/70_reset_and_hazards.md R242, R243). What a step does to a field is read off its shape (`exec_shape`): the
memory by `ExecShape.mem_cases`, the rest field by field. -/

namespace Sys2Proof.Machine

/-! ### The ends of a step, field by field -/

section
variable (s : State) (rd : RegIdx) (v target : Word)

@[simp] theorem State.advance_regs : s.advance.regs = s.regs := s.goto_regs _
@[simp] theorem State.advance_pc : s.advance.pc = s.pc + 4 := s.goto_pc _
@[simp] theorem State.advance_mem : s.advance.mem = s.mem := s.goto_mem _
@[simp] theorem State.advance_console : s.advance.console = s.console := s.goto_console _

@[simp] theorem State.redirect_regs : (s.redirect target).regs = s.regs := by
  unfold State.redirect
  split <;> simp

@[simp] theorem State.redirect_pc : (s.redirect target).pc = target := State.goto_pc _ _

@[simp] theorem State.redirect_mem : (s.redirect target).mem = s.mem := by
  unfold State.redirect
  split <;> simp

@[simp] theorem State.redirect_console : (s.redirect target).console = s.console := by
  unfold State.redirect
  split <;> simp

@[simp] theorem State.retire_slotZero : (s.retire rd v).regs.get 0 = s.regs.get 0 := by simp [State.retire]
@[simp] theorem State.retire_pc : (s.retire rd v).pc = s.pc + 4 := by simp [State.retire]
@[simp] theorem State.retire_mem : (s.retire rd v).mem = s.mem := by simp [State.retire]
@[simp] theorem State.retire_console : (s.retire rd v).console = s.console := by simp [State.retire]

end

/-! ### What a shape does to memory, to x0's slot and to the pc -/

theorem ExecShape.of_exec {i : Instr} {s t : State} (h : exec i s = .next t) : ExecShape i s t := by
  obtain ⟨t', ht', shape⟩ := exec_shape i s
  cases h.symm.trans ht'
  exact shape

section
variable {i : Instr} {s t : State}

/-- A property of memory that each of the three stores keeps holds after an instruction. -/
theorem ExecShape.mem_cases {P : Memory → Prop} (shape : ExecShape i s t) (h0 : P s.mem)
    (hbyte : ∀ a v, P (s.mem.storeByte a v)) (hhalf : ∀ a v, P (s.mem.storeHalf a v))
    (hword : ∀ a v, P (s.mem.storeWord a v)) : P t.mem := by
  cases shape with
  | storeByte a v => simpa using hbyte a v
  | storeHalf a v => simpa using hhalf a v
  | storeWord a v => simpa using hword a v
  | retire | advance | jump | branch | loadFault | print | exit | otherExit => simpa using h0

theorem ExecShape.mem_wf (shape : ExecShape i s t) (h : s.mem.wf) : t.mem.wf :=
  shape.mem_cases h (fun a v => Memory.storeByte_wf a v h) (fun a v => Memory.storeHalf_wf a v h)
    fun a v => Memory.storeWord_wf a v h

theorem ExecShape.mapped {a : Word} (shape : ExecShape i s t) (h : s.mem.mapped a = true) : t.mem.mapped a = true :=
  shape.mem_cases (P := fun m => m.mapped a = true) h (fun b v => Memory.mapped_storeByte b v h)
    (fun b v => Memory.mapped_storeHalf b v h) fun b v => Memory.mapped_storeWord b v h

theorem ExecShape.slotZero (shape : ExecShape i s t) : t.regs.get 0 = s.regs.get 0 := by
  cases shape <;> simp

/-- R26: each new pc is the old one, the old one plus 4, or an even target. -/
theorem ExecShape.pc_even (shape : ExecShape i s t) (hwf : i.wf = true) (hpc : s.pc.toNat % 2 = 0) :
    t.pc.toNat % 2 = 0 := by
  cases shape with
  | jump rd target even | branch target even => simpa using even hwf hpc
  | retire | advance | storeByte | storeHalf | storeWord | print => simpa using even_add_four hpc
  | loadFault | exit | otherExit => simpa using hpc

/-! ### The run state agrees with the rest (R28, R221, R243) -/

/-- A step that ends at a new pc goes on running where that pc is mapped and has run off the end where it is not. -/
theorem EndsAt.runAgrees {next : Word} (he : EndsAt s t next) (hrun : s.run = .running) : t.runAgrees := by
  obtain ⟨hpc, hend⟩ := he
  by_cases hm : t.mem.mapped next = true
  · rw [if_pos hm, hrun] at hend
    simpa [State.runAgrees, hend, hpc] using hm
  · rw [if_neg hm] at hend
    simpa [State.runAgrees, hend, hpc] using hm

theorem State.goto_runAgrees {next : Word} (hrun : s.run = .running) : (s.goto next).runAgrees := by
  obtain ⟨-, -, -, he⟩ := s.goto_spec next
  exact he.runAgrees hrun

theorem State.redirect_runAgrees {target : Word} (hrun : s.run = .running) : (s.redirect target).runAgrees := by
  obtain ⟨-, -, -, -, he⟩ := s.redirect_spec target
  exact he.runAgrees hrun

theorem State.retireStore_runAgrees {m : Memory} (hrun : s.run = .running) : (s.retireStore m).runAgrees :=
  State.goto_runAgrees (s := { s with mem := m }) hrun

/-- The generic exit leaves a0 as it was and a1 at 0. -/
theorem otherExit_runAgrees (a0 : s.getReg regA0 ∉ [1#32, 4#32, 9#32, 10#32, 11#32]) :
    ((s.setReg regA1 0#32).terminate (.ecallOtherExit (s.getReg regA0))).runAgrees := by
  have hread (r : RegIdx) := s.getReg_setReg r regA1 0#32
  simp only [State.runAgrees, State.terminate_run, State.terminate_getReg, hread]
  exact ⟨rfl, rfl, a0⟩

theorem ExecShape.runAgrees (shape : ExecShape i s t) (hrun : s.run = .running)
    (hpc : s.mem.mapped s.pc = true) : t.runAgrees := by
  cases shape with
  | retire rd v => exact State.goto_runAgrees ((s.setReg_run rd v).trans hrun)
  | advance | print => exact State.goto_runAgrees hrun
  | jump rd target => exact State.redirect_runAgrees ((s.setReg_run rd s.link).trans hrun)
  | branch target => exact State.redirect_runAgrees hrun
  | storeByte | storeHalf | storeWord => exact State.retireStore_runAgrees hrun
  | loadFault addr n size misses => exact ⟨rfl, hpc, misses, size⟩
  | exit ignored ecall a0 => exact a0
  | otherExit ignored ecall a0 => exact otherExit_runAgrees a0

end

/-! ### Every step keeps the invariant -/

section
variable {s t : State}

/-- However a step ends, its run state agrees with the rest; this asks nothing of the state before it. -/
theorem step_runAgrees (h : step s = .next t) : t.runAgrees := by
  obtain ⟨hrun, hpc, ⟨hfetch, rfl⟩ | ⟨w, i, -, -, hexec⟩ | ⟨w, w', -, -, rfl⟩⟩ := step_cases h
  · exact ⟨rfl, hpc, missesByte_word hfetch, rfl, rfl⟩
  · exact (ExecShape.of_exec hexec).runAgrees hrun hpc
  · exact State.goto_runAgrees (s := s.diagnose _) hrun

/-- Settles O57: the shapes keep x0's slot, canonical memory and even pcs, the last because a decoded instruction is
well formed; the run state agrees after every step. -/
theorem stepKeepsInv : Obligations.StepKeepsInv := by
  rintro s t ⟨hx0, hmem, hpc, -⟩ h
  have hagrees := step_runAgrees h
  obtain ⟨-, -, ⟨-, rfl⟩ | ⟨w, i, -, hdecode, hexec⟩ | ⟨w, w', -, -, rfl⟩⟩ := step_cases h
  · exact ⟨hx0, hmem, hpc, hagrees⟩
  · have shape := ExecShape.of_exec hexec
    obtain ⟨hwf, -⟩ := encodeOfDecode w i hdecode
    exact ⟨shape.slotZero.trans hx0, shape.mem_wf hmem, shape.pc_even hwf hpc, hagrees⟩
  · exact ⟨by simpa using hx0, by simpa using hmem, by simpa using even_add_four hpc, hagrees⟩

/-! ### What a step is, in each of its cases (R242) -/

theorem mapped_of_fetchWord {w : Word} (h : s.fetchWord = some w) : s.mem.mapped s.pc = true := by
  have hbytes := s.mem.readWord_isSome s.pc
  rw [State.fetchWord] at h
  simp only [h, Option.isSome_some, eq_comm (a := true), Bool.and_eq_true] at hbytes
  exact hbytes.1.1.1

theorem step_eq_runWord {w : Word} (hrun : s.run = .running) (h : s.fetchWord = some w) : step s = runWord w s := by
  simp [step, hrun, mapped_of_fetchWord h, fetchAndRun, h]

theorem step_eq_raiseUnmapped (hrun : s.run = .running) (hpc : s.mem.mapped s.pc = true) (h : s.fetchWord = none) :
    step s = .next (s.raiseUnmapped .fetch s.pc 4) := by
  simp [step, hrun, hpc, fetchAndRun, h]

theorem step_eq_refused (hrun : s.run ≠ .running) : step s = .refused (.notRunning s.run) := by
  unfold step
  split <;> simp_all

theorem runWord_instr {w : Word} {i : Instr} (h : decodeWord w = .instr i) (s : State) : runWord w s = exec i s := by
  simp [runWord, h]

theorem runWord_unimplemented {w w' : Word} (h : decodeWord w = .unimplemented w') (s : State) :
    runWord w s = .next (s.diagnose (.unimplementedOpcode w')).advance := by
  simp [runWord, h, execUnimplemented]

end

/-! ### The diagnostics log is carried through (R31) -/

/-- The same state with another diagnostics log. -/
def State.withLog (s : State) (log : List Diagnostic) : State := { s with diags := log }

/-- From `s` with any log, `f` gives one state but for the log, to which it appends the same entries. -/
def AppendsLog (f : State → State) (s : State) : Prop :=
  ∃ entries, ∀ log, f (s.withLog log) = (f s).withLog (log ++ entries)

theorem AppendsLog.comp {f g : State → State} {s : State} (hf : AppendsLog f (g s)) (hg : AppendsLog g s) :
    AppendsLog (f ∘ g) s := by
  obtain ⟨eg, hg⟩ := hg
  obtain ⟨ef, hf⟩ := hf
  exact ⟨eg ++ ef, fun log => by simp only [Function.comp_apply, hg, hf, List.append_assoc]⟩

/-- An operation that leaves the log alone, whatever it is. -/
theorem AppendsLog.of_eq {f : State → State} {s : State} (h : ∀ log, f (s.withLog log) = (f s).withLog log) :
    AppendsLog f s :=
  ⟨[], fun log => by rw [h, List.append_nil]⟩

section
variable (s : State) (rd : RegIdx) (v next target addr : Word) (k : AccessKind) (n : Nat)

theorem setReg_appendsLog : AppendsLog (·.setReg rd v) s := by
  refine .of_eq fun log => ?_
  simp only [State.setReg]
  split <;> rfl

theorem goto_appendsLog : AppendsLog (·.goto next) s := by
  refine .of_eq fun log => ?_
  cases h : s.mem.mapped next <;> simp [State.goto, State.withLog, h]

theorem diagnose_appendsLog (d : Diagnostic) : AppendsLog (·.diagnose d) s := ⟨[d], fun _ => rfl⟩

theorem emit_appendsLog (e : ConsoleEvent) : AppendsLog (·.emit e) s := .of_eq fun _ => rfl

theorem terminate_appendsLog (c : TermCause) : AppendsLog (·.terminate c) s := .of_eq fun _ => rfl

theorem raiseUnmapped_appendsLog : AppendsLog (·.raiseUnmapped k addr n) s := .of_eq fun _ => rfl

theorem advance_appendsLog : AppendsLog State.advance s := goto_appendsLog s (s.pc + 4)

theorem retire_appendsLog : AppendsLog (·.retire rd v) s := (advance_appendsLog _).comp (setReg_appendsLog s rd v)

theorem retireStore_appendsLog (m : Memory) : AppendsLog (·.retireStore m) s :=
  (advance_appendsLog { s with mem := m }).comp (g := fun u => { u with mem := m }) (.of_eq fun _ => rfl)

theorem redirect_appendsLog : AppendsLog (·.redirect target) s := by
  unfold State.redirect
  split
  · exact goto_appendsLog s target
  · exact (goto_appendsLog _ target).comp (diagnose_appendsLog s _)

theorem retireLoad_appendsLog (value : Option Word) : AppendsLog (·.retireLoad rd addr n value) s := by
  cases value with
  | some v => exact retire_appendsLog s rd v
  | none => exact raiseUnmapped_appendsLog s addr .load n

theorem ecallService_appendsLog : AppendsLog ecallService s := by
  have hread (log : List Diagnostic) (r : RegIdx) : (s.withLog log).getReg r = s.getReg r := rfl
  unfold AppendsLog ecallService
  simp only [hread]
  split
  · exact (advance_appendsLog _).comp (emit_appendsLog s _)
  · split
    · exact advance_appendsLog s
    · split
      · exact advance_appendsLog s
      · split
        · exact terminate_appendsLog s _
        · split
          · exact (advance_appendsLog _).comp (emit_appendsLog s _)
          · exact (terminate_appendsLog _ _).comp (setReg_appendsLog s _ _)

end

/-- `AppendsLog` of an outcome: always a next state, one but for the log. -/
def OutcomeAppendsLog (o : State → Host.Outcome State Fault Refusal) (s : State) : Prop :=
  ∃ (t : State) (entries : List Diagnostic), ∀ log, o (s.withLog log) = .next (t.withLog (log ++ entries))

/-- An outcome whose next state is given by `f`, read off the state but for its log. -/
theorem AppendsLog.outcome {f : State → State} {s : State} {o : State → Host.Outcome State Fault Refusal}
    (hf : AppendsLog f s) (ho : ∀ log, o (s.withLog log) = .next (f (s.withLog log))) : OutcomeAppendsLog o s := by
  obtain ⟨entries, hf⟩ := hf
  exact ⟨f s, entries, fun log => by rw [ho, hf]⟩

theorem branchIf_appendsLog (s : State) (taken : Bool) (offset : BitVec 13) :
    OutcomeAppendsLog (branchIf taken offset) s := by
  cases taken with
  | true => exact (redirect_appendsLog s (s.branchTarget offset)).outcome fun _ => rfl
  | false => exact (advance_appendsLog s).outcome fun _ => rfl

/-! An instruction's operands are values of registers, the pc and memory. So each of the following asks, besides the
instruction's meaning, only that the operands are the same with another log. -/

section
variable {i : Instr} {s : State} {rd : RegIdx} {value target : State → Word}

theorem exec_appendsLog_of_retire (h : ∀ u, exec i u = .next (u.retire rd (value u)))
    (hvalue : ∀ log, value (s.withLog log) = value s) : OutcomeAppendsLog (exec i) s :=
  (retire_appendsLog s rd (value s)).outcome fun log => by rw [h, hvalue]

theorem exec_appendsLog_of_jump (h : ∀ u, exec i u = .next ((u.setReg rd (value u)).redirect (target u)))
    (hvalue : ∀ log, value (s.withLog log) = value s) (htarget : ∀ log, target (s.withLog log) = target s) :
    OutcomeAppendsLog (exec i) s :=
  ((redirect_appendsLog _ (target s)).comp (setReg_appendsLog s rd (value s))).outcome fun log => by
    rw [h, hvalue, htarget, Function.comp_apply]

theorem exec_appendsLog_of_branch {taken : State → Bool} {offset : BitVec 13}
    (h : ∀ u, exec i u = branchIf (taken u) offset u) (htaken : ∀ log, taken (s.withLog log) = taken s) :
    OutcomeAppendsLog (exec i) s := by
  obtain ⟨t, entries, ht⟩ := branchIf_appendsLog s (taken s) offset
  exact ⟨t, entries, fun log => by rw [h, htaken, ht]⟩

theorem exec_appendsLog_of_load {addr : State → Word} {n : Nat} {read : State → Option Word}
    (h : ∀ u, exec i u = .next (u.retireLoad rd (addr u) n (read u)))
    (haddr : ∀ log, addr (s.withLog log) = addr s) (hread : ∀ log, read (s.withLog log) = read s) :
    OutcomeAppendsLog (exec i) s :=
  (retireLoad_appendsLog s rd (addr s) n (read s)).outcome fun log => by rw [h, haddr, hread]

theorem exec_appendsLog_of_store {written : State → Memory} (h : ∀ u, exec i u = .next (u.retireStore (written u)))
    (hwritten : ∀ log, written (s.withLog log) = written s) : OutcomeAppendsLog (exec i) s :=
  (retireStore_appendsLog s (written s)).outcome fun log => by rw [h, hwritten]

end

theorem exec_appendsLog (i : Instr) (s : State) : OutcomeAppendsLog (exec i) s := by
  cases i with
  | lui | auipc => exact exec_appendsLog_of_retire (fun _ => rfl) fun _ => rfl
  | jal | jalr => exact exec_appendsLog_of_jump (fun _ => rfl) (fun _ => rfl) fun _ => rfl
  | beq | bne | blt | bge | bltu | bgeu => exact exec_appendsLog_of_branch (fun _ => rfl) fun _ => rfl
  | lb | lh | lw | lbu | lhu => exact exec_appendsLog_of_load (fun _ => rfl) (fun _ => rfl) fun _ => rfl
  | sb | sh | sw => exact exec_appendsLog_of_store (fun _ => rfl) fun _ => rfl
  | addi | slti | sltiu | xori | ori | andi => exact exec_appendsLog_of_retire (fun _ => rfl) fun _ => rfl
  | slli | srli | srai => exact exec_appendsLog_of_retire (fun _ => rfl) fun _ => rfl
  | add | sub | sll | slt | sltu | xor | srl | sra | or | and =>
    exact exec_appendsLog_of_retire (fun _ => rfl) fun _ => rfl
  | mul | mulh | mulhsu | mulhu | div | divu | rem | remu =>
    exact exec_appendsLog_of_retire (fun _ => rfl) fun _ => rfl
  | fence => exact (advance_appendsLog s).outcome fun _ => rfl
  | ecall => exact (ecallService_appendsLog s).outcome fun _ => rfl

theorem runWord_appendsLog (w : Word) (s : State) : OutcomeAppendsLog (runWord w) s := by
  cases hdecode : decodeWord w with
  | instr i =>
    obtain ⟨t, entries, h⟩ := exec_appendsLog i s
    exact ⟨t, entries, fun log => by rw [runWord_instr hdecode, h]⟩
  | unimplemented w' =>
    have hf := (advance_appendsLog _).comp (diagnose_appendsLog s (.unimplementedOpcode w'))
    exact hf.outcome fun log => runWord_unimplemented hdecode _

/-- A step that is taken is taken with any log. -/
theorem step_appendsLog {s t : State} (h : step s = .next t) : OutcomeAppendsLog step s := by
  obtain ⟨hrun, hpc, -⟩ := step_cases h
  cases hfetch : s.fetchWord with
  | none =>
    exact (raiseUnmapped_appendsLog s s.pc .fetch 4).outcome fun log =>
      step_eq_raiseUnmapped (s := s.withLog log) hrun hpc hfetch
  | some w =>
    obtain ⟨u, entries, hu⟩ := runWord_appendsLog w s
    exact ⟨u, entries, fun log => (step_eq_runWord (s := s.withLog log) hrun hfetch).trans (hu log)⟩

/-- Settles O60: `step_appendsLog` at the state's own log gives the step itself. -/
theorem diagnosticsAreNeverRead : Obligations.DiagnosticsAreNeverRead := by
  intro s t log h
  obtain ⟨u, entries, hu⟩ := step_appendsLog h
  have hown : t = u.withLog (s.diags ++ entries) := Host.Outcome.next.inj (h.symm.trans (hu s.diags))
  subst hown
  exact ⟨entries, rfl, hu log⟩

end Sys2Proof.Machine

/-! PROOFS. Encoding, the rest (spec/30_encoding.md): fields and immediates as arithmetic and bit by bit, the opcode
table against the decoder, and the words of the unimplemented path. -/

namespace Sys2Proof

/-! ### Fields as arithmetic (R61) -/

section
variable (w : Word)

theorem rdOf_val : (rdOf w).val = w.toNat / 2 ^ 7 % 2 ^ 5 := by
  rw [rdOf, BitVec.val_toFin, BitVec.extractLsb'_toNat, Nat.shiftRight_eq_div_pow]

theorem rs1Of_val : (rs1Of w).val = w.toNat / 2 ^ 15 % 2 ^ 5 := by
  rw [rs1Of, BitVec.val_toFin, BitVec.extractLsb'_toNat, Nat.shiftRight_eq_div_pow]

theorem rs2Of_val : (rs2Of w).val = w.toNat / 2 ^ 20 % 2 ^ 5 := by
  rw [rs2Of, BitVec.val_toFin, BitVec.extractLsb'_toNat, Nat.shiftRight_eq_div_pow]

theorem funct3Of_toNat : (funct3Of w).toNat = w.toNat / 2 ^ 12 % 8 := by
  rw [funct3Of, BitVec.extractLsb'_toNat, Nat.shiftRight_eq_div_pow]

theorem funct7Of_toNat : (funct7Of w).toNat = w.toNat / 2 ^ 25 := by
  rw [funct7Of, BitVec.extractLsb'_toNat, Nat.shiftRight_eq_div_pow]
  omega

theorem shamtOf_toNat : (shamtOf w).toNat = w.toNat / 2 ^ 20 % 2 ^ 5 := by
  rw [shamtOf, BitVec.extractLsb'_toNat, Nat.shiftRight_eq_div_pow]

end

/-- Settles O2: a slice of a word is a quotient and a remainder; funct7 ends the word, so its remainder is the
quotient. -/
theorem fieldsAreSlices : Obligations.FieldsAreSlices := fun w =>
  ⟨opcodeOf_toNat w, rdOf_val w, funct3Of_toNat w, rs1Of_val w, rs2Of_val w, funct7Of_toNat w⟩

/-! ### Immediates bit by bit and their ranges (R63 to R68) -/

section
variable (w : Word) {k : Nat}

/-- Sign extension copies the field's top bit, bit n, upward. -/
theorem getLsbD_sext32 {n : Nat} (v : BitVec (n + 1)) (hk : k < 32) :
    (sext32 v).getLsbD k = v.getLsbD (min k n) := by
  rw [sext32, BitVec.getLsbD_signExtend, decide_eq_true hk, Bool.true_and, BitVec.msb_eq_getLsbD_last,
    Nat.add_sub_cancel]
  by_cases hfield : k < n + 1
  · rw [if_pos hfield, Nat.min_eq_left (by omega)]
  · rw [if_neg hfield, Nat.min_eq_right (by omega)]

theorem getLsbD_immI (hk : k < 32) :
    (sext32 (fieldI w)).getLsbD k = w.getLsbD (if k < 11 then k + 20 else 31) := by
  rw [getLsbD_sext32 _ hk]
  interval_cases k <;> simp [fieldI]

theorem getLsbD_immS (hk : k < 32) :
    (sext32 (fieldS w)).getLsbD k = w.getLsbD (if k < 5 then k + 7 else if k < 11 then k + 20 else 31) := by
  rw [getLsbD_sext32 _ hk, fieldS_bit]
  interval_cases k <;> simp

theorem getLsbD_immB (hk : k < 32) :
    (sext32 (fieldB w)).getLsbD k =
      if k = 0 then false
      else w.getLsbD (if k < 5 then k + 7 else if k < 11 then k + 20 else if k = 11 then 7 else 31) := by
  rw [getLsbD_sext32 _ hk, fieldB_bit]
  interval_cases k <;> simp

theorem getLsbD_immU (hk : k < 32) :
    (Machine.immUpper (fieldU w)).getLsbD k = if k < 12 then false else w.getLsbD k := by
  change @BitVec.getLsbD (20 + 12) (fieldU w ++ 0#12) k = _
  rw [BitVec.getLsbD_append]
  interval_cases k <;> simp [fieldU]

theorem getLsbD_immJ (hk : k < 32) :
    (sext32 (fieldJ w)).getLsbD k =
      if k = 0 then false
      else w.getLsbD (if k < 11 then k + 20 else if k = 11 then 20 else if k < 20 then k else 31) := by
  rw [getLsbD_sext32 _ hk, fieldJ_bit]
  interval_cases k <;> simp

/-- The range of a sign-extended field of n + 1 bits. -/
theorem toInt_sext32_bounds {n : Nat} (v : BitVec (n + 1)) (hn : n + 1 ≤ 32) :
    -2 ^ n ≤ (sext32 v).toInt ∧ (sext32 v).toInt < 2 ^ n := by
  rw [sext32, BitVec.toInt_signExtend_of_le hn]
  exact ⟨BitVec.le_toInt v, BitVec.toInt_lt⟩

/-- An offset whose bit 0 is 0 is an even number, which takes 1 from the upper bound. -/
theorem toInt_sext32_even {n : Nat} {v : BitVec n} (hn : 0 < n) (hv : evenOffset v = true) :
    (sext32 v).toInt % 2 = 0 := by
  have heven := Machine.even_add_offset (pc := 0#32) hn rfl hv
  rw [BitVec.zero_add] at heven
  rw [BitVec.toInt_eq_toNat_cond]
  split <;> omega

end

/-- Settles O3: the bits are those of the fields, extended; the ranges are those of the fields' widths, less the odd
numbers for the two offsets. -/
theorem immediateLayouts : Obligations.ImmediateLayouts := by
  intro w
  have hB := toInt_sext32_bounds (fieldB w) (by decide)
  have hJ := toInt_sext32_bounds (fieldJ w) (by decide)
  have hBeven := toInt_sext32_even (by decide) (evenOffset_fieldB w)
  have hJeven := toInt_sext32_even (by decide) (evenOffset_fieldJ w)
  have hI := toInt_sext32_bounds (fieldI w) (by decide)
  have hS := toInt_sext32_bounds (fieldS w) (by decide)
  refine ⟨fun k => getLsbD_immI w, fun k => getLsbD_immS w, fun k => getLsbD_immB w, fun k => getLsbD_immU w,
    fun k => getLsbD_immJ w, shamtOf_toNat w, ?_, ?_, ?_, ?_⟩ <;> omega

/-- Settles O1: the decoder computes each of the eleven words. -/
theorem sampleWordsDecode : Obligations.SampleWordsDecode := by
  refine ⟨?_, ?_, ?_, ?_, ?_, ?_, ?_, ?_, ?_, ?_, ?_⟩ <;> decide

/-! ### The opcode table (R80) -/

section
variable {w pattern : Word}

/-- A word that matches a row has the pattern's value in every slice the mask keeps. -/
theorem OpRow.extractLsb'_of_matches {lo n : Nat} {mask : Word} (h : OpRow.matches ⟨pattern, mask⟩ w = true)
    (hmask : ∀ k < n, mask.getLsbD (lo + k) = true) : w.extractLsb' lo n = pattern.extractLsb' lo n := by
  have hpattern : w &&& mask = pattern := by simpa [OpRow.matches] using h
  subst hpattern
  apply BitVec.eq_of_getLsbD_eq
  intro k hk
  simp only [BitVec.getLsbD_extractLsb', BitVec.getLsbD_and, hmask k hk, Bool.and_true]

theorem rowOpcode_matches (h : (rowOpcode pattern).matches w = true) : opcodeOf w = opcodeOf pattern :=
  OpRow.extractLsb'_of_matches h (by decide)

theorem rowFunct3_matches (h : (rowFunct3 pattern).matches w = true) :
    opcodeOf w = opcodeOf pattern ∧ funct3Of w = funct3Of pattern :=
  ⟨OpRow.extractLsb'_of_matches h (by decide), OpRow.extractLsb'_of_matches h (by decide)⟩

theorem rowFunct7_matches (h : (rowFunct7 pattern).matches w = true) :
    opcodeOf w = opcodeOf pattern ∧ funct3Of w = funct3Of pattern ∧ funct7Of w = funct7Of pattern :=
  ⟨OpRow.extractLsb'_of_matches h (by decide), OpRow.extractLsb'_of_matches h (by decide),
    OpRow.extractLsb'_of_matches h (by decide)⟩

/-- The table's row of what a word decodes to; the unimplemented path has none. -/
def Decoded.row : Decoded → Option OpRow
  | .instr i => some i.row
  | .unimplemented _ => none

/-- A word that matches an instruction's row decodes to an instruction of that row: the row fixes every bit the decoder
tests. -/
theorem row_decodeWord_of_matches {i : Instr} (h : i.row.matches w = true) : (decodeWord w).row = some i.row := by
  cases i with
  | lui => rw [decodeWord_of_lui (rowOpcode_matches h)]; rfl
  | auipc => rw [decodeWord_of_auipc (rowOpcode_matches h)]; rfl
  | jal => rw [decodeWord_of_jal (rowOpcode_matches h)]; rfl
  | jalr =>
    obtain ⟨hop, h3⟩ := rowFunct3_matches h
    rw [decodeWord_of_jalr hop, decodeJalr, h3]; rfl
  | beq | bne | blt | bge | bltu | bgeu =>
    obtain ⟨hop, h3⟩ := rowFunct3_matches h
    rw [decodeWord_of_branch hop, decodeBranch, h3]; rfl
  | lb | lh | lw | lbu | lhu =>
    obtain ⟨hop, h3⟩ := rowFunct3_matches h
    rw [decodeWord_of_load hop, decodeLoad, h3]; rfl
  | sb | sh | sw =>
    obtain ⟨hop, h3⟩ := rowFunct3_matches h
    rw [decodeWord_of_store hop, decodeStore, h3]; rfl
  | addi | slti | sltiu | xori | ori | andi =>
    obtain ⟨hop, h3⟩ := rowFunct3_matches h
    rw [decodeWord_of_opImm hop, decodeOpImm, h3]; rfl
  | slli | srli | srai =>
    obtain ⟨hop, h3, h7⟩ := rowFunct7_matches h
    rw [decodeWord_of_opImm hop, decodeOpImm, h3, h7]; rfl
  | add | sll | slt | sltu | xor | srl | or | and =>
    obtain ⟨hop, h3, h7⟩ := rowFunct7_matches h
    rw [decodeWord_of_op hop, decodeOp_of_base h7, decodeOpBase, h3]; rfl
  | sub | sra =>
    obtain ⟨hop, h3, h7⟩ := rowFunct7_matches h
    rw [decodeWord_of_op hop, decodeOp_of_alt h7, decodeOpAlt, h3]; rfl
  | mul | mulh | mulhsu | mulhu | div | divu | rem | remu =>
    obtain ⟨hop, h3, h7⟩ := rowFunct7_matches h
    rw [decodeWord_of_op hop, decodeOp_of_mulDiv h7, decodeOpMulDiv, h3]; rfl
  | fence => rw [decodeWord_of_fence (rowOpcode_matches h)]; rfl
  | ecall => rw [decodeWord_of_system (rowOpcode_matches h)]; rfl

theorem row_decodeWord_of_mem {r : OpRow} (hr : r ∈ opcodeTable) (h : r.matches w = true) :
    (decodeWord w).row = some r := by
  obtain ⟨i, -, rfl⟩ := List.mem_map.1 hr
  exact row_decodeWord_of_matches h

end

/-- The table lists the row of every instruction. -/
theorem row_mem_opcodeTable (i : Instr) : i.row ∈ opcodeTable := by
  cases i <;> simp [opcodeTable, oneOfEach, Instr.row]

/-- The family's statement for every instruction. -/
theorem ownRow (i : Instr) : Laws.OwnRow.Statement i := by
  cases i
  exacts [Laws.OwnRow.lui _ _, Laws.OwnRow.auipc _ _, Laws.OwnRow.jal _ _, Laws.OwnRow.jalr _ _ _,
    Laws.OwnRow.beq _ _ _, Laws.OwnRow.bne _ _ _, Laws.OwnRow.blt _ _ _, Laws.OwnRow.bge _ _ _,
    Laws.OwnRow.bltu _ _ _, Laws.OwnRow.bgeu _ _ _, Laws.OwnRow.lb _ _ _, Laws.OwnRow.lh _ _ _,
    Laws.OwnRow.lw _ _ _, Laws.OwnRow.lbu _ _ _, Laws.OwnRow.lhu _ _ _, Laws.OwnRow.sb _ _ _,
    Laws.OwnRow.sh _ _ _, Laws.OwnRow.sw _ _ _, Laws.OwnRow.addi _ _ _, Laws.OwnRow.slti _ _ _,
    Laws.OwnRow.sltiu _ _ _, Laws.OwnRow.xori _ _ _, Laws.OwnRow.ori _ _ _, Laws.OwnRow.andi _ _ _,
    Laws.OwnRow.slli _ _ _, Laws.OwnRow.srli _ _ _, Laws.OwnRow.srai _ _ _, Laws.OwnRow.add _ _ _,
    Laws.OwnRow.sub _ _ _, Laws.OwnRow.sll _ _ _, Laws.OwnRow.slt _ _ _, Laws.OwnRow.sltu _ _ _,
    Laws.OwnRow.xor _ _ _, Laws.OwnRow.srl _ _ _, Laws.OwnRow.sra _ _ _, Laws.OwnRow.or _ _ _,
    Laws.OwnRow.and _ _ _, Laws.OwnRow.mul _ _ _, Laws.OwnRow.mulh _ _ _, Laws.OwnRow.mulhsu _ _ _,
    Laws.OwnRow.mulhu _ _ _, Laws.OwnRow.div _ _ _, Laws.OwnRow.divu _ _ _, Laws.OwnRow.rem _ _ _,
    Laws.OwnRow.remu _ _ _, Laws.OwnRow.fence _, Laws.OwnRow.ecall _]

/-- Settles O6: what a word decodes to is of the row it matches (`row_decodeWord_of_matches`), so it matches no second
row; an instruction's word matches its own row, and that word is the one decoded (`encodeOfDecode`). -/
theorem tableDecodesUnambiguously : Obligations.TableDecodesUnambiguously := by
  refine ⟨rfl, ownRow, fun w r hr r' hr' hmatch hmatch' => ?_, fun w i hdecode => ?_, fun w w' hdecode => ?_⟩
  · exact Option.some.inj ((row_decodeWord_of_mem hr hmatch).symm.trans (row_decodeWord_of_mem hr' hmatch'))
  · obtain ⟨-, hencode⟩ := encodeOfDecode w i hdecode
    exact ⟨row_mem_opcodeTable i, hencode ▸ ownRow i⟩
  · have hkeeps := decodeWord_keeps w
    rw [hdecode] at hkeeps
    refine ⟨hkeeps, fun r hr => Bool.eq_false_iff.2 fun hmatch => ?_⟩
    have hrow := row_decodeWord_of_mem hr hmatch
    rw [hdecode] at hrow
    cases hrow

/-! ### The words of the unimplemented path (R79) -/

section
variable (w : Word)

theorem decodeJalr_unimplemented_iff : decodeJalr w = .unimplemented w ↔ (funct3Of w).toNat ≠ 0 := by
  unfold decodeJalr
  split <;> simp_all [← BitVec.toNat_inj]

theorem decodeBranch_unimplemented_iff : decodeBranch w = .unimplemented w ↔ (funct3Of w).toNat ∈ [2, 3] := by
  unfold decodeBranch
  split
  case h_7 =>
    have hlt := (funct3Of w).isLt
    simp_all [← BitVec.toNat_inj]
    omega
  all_goals simp [*]

theorem decodeLoad_unimplemented_iff : decodeLoad w = .unimplemented w ↔ (funct3Of w).toNat ∈ [3, 6, 7] := by
  unfold decodeLoad
  split
  case h_6 =>
    have hlt := (funct3Of w).isLt
    simp_all [← BitVec.toNat_inj]
    omega
  all_goals simp [*]

theorem decodeStore_unimplemented_iff : decodeStore w = .unimplemented w ↔ 3 ≤ (funct3Of w).toNat := by
  unfold decodeStore
  split
  case h_4 =>
    have hlt := (funct3Of w).isLt
    simp_all [← BitVec.toNat_inj]
    omega
  all_goals simp [*]

theorem decodeOpImm_unimplemented_iff :
    decodeOpImm w = .unimplemented w ↔
      ((funct3Of w).toNat = 1 ∧ (funct7Of w).toNat ≠ 0) ∨
        ((funct3Of w).toNat = 5 ∧ (funct7Of w).toNat ∉ [0x00, 0x20]) := by
  unfold decodeOpImm
  split
  case h_7 h1 =>
    split <;> simp_all [← BitVec.toNat_inj]
  case h_8 h0 h2 h3 h4 h6 h7 h1 =>
    have h5 := funct3_eq_five h0 h2 h3 h4 h6 h7 h1
    split <;> simp_all [← BitVec.toNat_inj]
  all_goals simp [*]

theorem decodeOp_unimplemented_iff :
    decodeOp w = .unimplemented w ↔
      (funct7Of w).toNat ∉ [0x00, 0x20, 0x01] ∨ ((funct7Of w).toNat = 0x20 ∧ (funct3Of w).toNat ∉ [0, 5]) := by
  unfold decodeOp
  split
  case h_1 h7 =>
    unfold decodeOpBase
    split <;> simp [h7]
  case h_2 h7 =>
    unfold decodeOpAlt
    split <;> simp_all [← BitVec.toNat_inj]
  case h_3 h7 =>
    unfold decodeOpMulDiv
    split <;> simp [h7]
  case h_4 => simp_all [← BitVec.toNat_inj]

end

/-- Settles O7: the opcode picks the group, and each group's words are listed by funct3 and funct7. -/
theorem unimplementedWords : Obligations.UnimplementedWords := by
  intro w
  rw [← opcodeOf_toNat, ← funct3Of_toNat, ← funct7Of_toNat]
  unfold decodeWord
  split
  case h_4 hop => simp [hop, decodeJalr_unimplemented_iff]
  case h_5 hop => simp [hop, decodeBranch_unimplemented_iff]
  case h_6 hop => simp [hop, decodeLoad_unimplemented_iff]
  case h_7 hop => simp [hop, decodeStore_unimplemented_iff]
  case h_8 hop => simp [hop, decodeOpImm_unimplemented_iff]
  case h_9 hop => simp [hop, decodeOp_unimplemented_iff]
  case h_12 => simp_all [← BitVec.toNat_inj]
  all_goals simp [*]

end Sys2Proof

/-! PROOFS. Memory and launch, the rest (spec/20_memory.md, spec/10_state.md R33): reads as arithmetic over the bytes,
the uniqueness of the canonical form, and the image load, by induction on the image. -/

namespace Sys2Proof.Machine

/-! ### Bytes put together, as arithmetic (R43, R45) -/

section
variable (b0 b1 b2 b3 : Byte)

/-- The high part of a concatenation weighs 2 to the width of the low part. -/
theorem toNat_append_eq {n k : Nat} (hi : BitVec n) (lo : BitVec k) :
    (hi ++ lo).toNat = lo.toNat + 2 ^ k * hi.toNat := by
  rw [BitVec.toNat_append, ← Nat.shiftLeft_add_eq_or_of_lt lo.isLt, Nat.shiftLeft_eq, Nat.add_comm, Nat.mul_comm]

theorem halfOfBytes_toNat : (halfOfBytes b0 b1).toNat = b0.toNat + 2 ^ 8 * b1.toNat :=
  toNat_append_eq b1 b0

theorem wordOfBytes_toNat :
    (wordOfBytes b0 b1 b2 b3).toNat = b0.toNat + 2 ^ 8 * b1.toNat + 2 ^ 16 * b2.toNat + 2 ^ 24 * b3.toNat := by
  change (b3 ++ b2 ++ b1 ++ b0).toNat = _
  simp only [toNat_append_eq]
  omega

theorem halfOfBytes_eq : halfOfBytes b0 b1 = BitVec.ofNat 16 (b0.toNat + 2 ^ 8 * b1.toNat) := by
  rw [← halfOfBytes_toNat, BitVec.ofNat_toNat, BitVec.setWidth_eq]

theorem wordOfBytes_eq :
    wordOfBytes b0 b1 b2 b3 =
      BitVec.ofNat 32 (b0.toNat + 2 ^ 8 * b1.toNat + 2 ^ 16 * b2.toNat + 2 ^ 24 * b3.toNat) := by
  rw [← wordOfBytes_toNat, BitVec.ofNat_toNat, BitVec.setWidth_eq]

end

/-! ### A read is none where a byte is unmapped (R43) -/

section
variable {m : Memory} {a : Word}

theorem Memory.readHalf_eq_none_iff :
    m.readHalf a = none ↔ m.readByte a = none ∨ m.readByte (a + 1) = none := by
  have hsome := m.readHalf_isSome a
  simp only [Memory.mapped] at hsome
  simp only [← Option.not_isSome_iff_eq_none, hsome, Bool.and_eq_true, not_and_or]

theorem Memory.readWord_eq_none_iff :
    m.readWord a = none ↔ m.readByte a = none ∨ m.readByte (a + 1) = none ∨ m.readByte (a + 2) = none ∨
      m.readByte (a + 3) = none := by
  have hsome := m.readWord_isSome a
  simp only [Memory.mapped] at hsome
  simp only [← Option.not_isSome_iff_eq_none, hsome, Bool.and_eq_true, not_and_or, or_assoc]

end

/-- Settles O8: a read puts its bytes together, and their concatenation is their weighted sum. -/
theorem memoryReads : Obligations.MemoryReads := by
  intro m a
  refine ⟨fun b0 b1 h0 h1 => ?_, Memory.readHalf_eq_none_iff.2, fun b0 b1 b2 b3 h0 h1 h2 h3 => ?_,
    Memory.readWord_eq_none_iff.2⟩
  · rw [← halfOfBytes_eq]
    exact Memory.readHalf_of_bytes h0 h1
  · rw [← wordOfBytes_eq]
    exact Memory.readWord_of_bytes h0 h1 h2 h3

/-! ### Narrow reads after a word store (R45) -/

theorem Memory.readByte_storeWord_at (m : Memory) (a v : Word) {k : Nat} (hk : k < 4) :
    (m.storeWord a v).readByte (a + BitVec.ofNat 32 k) = some (byteOfWord v k) := by
  rw [Memory.readByte_storeWord]
  interval_cases k <;> simp

theorem Memory.mapped_storeWord_same (m : Memory) (a v : Word) : (m.storeWord a v).mapped a = true := by
  have hfirst := m.readByte_storeWord_at a v (k := 0) (by decide)
  rw [BitVec.add_zero] at hfirst
  rw [Memory.mapped, hfirst, Option.isSome_some]

theorem halfOfBytes_upper (v : Word) :
    halfOfBytes (byteOfWord v 2) (byteOfWord v 3) = BitVec.ofNat 16 (v.toNat / 2 ^ 16) := by
  apply BitVec.eq_of_toNat_eq
  rw [halfOfBytes_toNat, byteOfWord_eq, byteOfWord_eq, BitVec.toNat_ofNat, BitVec.toNat_ofNat, BitVec.toNat_ofNat]
  omega

/-- Settles O10: the upper half-word is made of bytes 2 and 3 of the value. -/
theorem mixedWidthAccess : Obligations.MixedWidthAccess := by
  intro m a v
  refine ⟨?_, fun k hk => ?_⟩
  · rw [← halfOfBytes_upper]
    refine Memory.readHalf_of_bytes (m.readByte_storeWord_at a v (k := 2) (by decide)) ?_
    rw [BitVec.add_assoc]
    exact m.readByte_storeWord_at a v (k := 3) (by decide)
  · rw [m.readByte_storeWord_at a v hk, byteOfWord_eq, Nat.pow_mul]

/-! ### The canonical form is unique -/

theorem Memory.lookup_eq_none {m : Memory} {k : Nat} (h : ∀ c ∈ m, k < c.1) : m.lookup k = none := by
  induction m with
  | nil => rfl
  | cons c rest ih =>
    obtain ⟨hc, hrest⟩ := List.forall_mem_cons.1 h
    rw [Memory.lookup, if_neg (Nat.ne_of_gt hc), ih hrest]

theorem Memory.lookup_cons_self (c : Host.Cell) (rest : Memory) : Memory.lookup (c :: rest) c.1 = some c.2 :=
  if_pos rfl

/-- A lower head would be listed on one side alone. -/
theorem Memory.not_head_lt {c d : Host.Cell} {rest rest' : Memory} (hrise : ∀ e ∈ rest', d.1 < e.1)
    (hlookup : Memory.lookup (c :: rest) c.1 = Memory.lookup (d :: rest') c.1) : ¬ c.1 < d.1 := by
  intro hlt
  have hnone : Memory.lookup (d :: rest') c.1 = none := by
    refine Memory.lookup_eq_none fun e he => ?_
    rcases List.mem_cons.1 he with rfl | he
    · exact hlt
    · exact Nat.lt_trans hlt (hrise e he)
  rw [Memory.lookup_cons_self, hnone] at hlookup
  cases hlookup

/-- The heads agree, being each side's lowest address, and so do the tails, neither of which lists the head's. -/
theorem Memory.eq_of_lookup_eq {m m' : Memory} (hm : m.Pairwise fun c d => c.1 < d.1)
    (hm' : m'.Pairwise fun c d => c.1 < d.1) (h : ∀ k, m.lookup k = m'.lookup k) : m = m' := by
  induction m generalizing m' with
  | nil =>
    cases m' with
    | nil => rfl
    | cons d rest' =>
      have hd := h d.1
      rw [Memory.lookup_cons_self] at hd
      cases hd
  | cons c rest ih =>
    cases m' with
    | nil =>
      have hc := h c.1
      rw [Memory.lookup_cons_self] at hc
      cases hc
    | cons d rest' =>
      obtain ⟨hrise, hrest⟩ := List.pairwise_cons.1 hm
      obtain ⟨hrise', hrest'⟩ := List.pairwise_cons.1 hm'
      have haddr : c.1 = d.1 := Nat.le_antisymm (Nat.le_of_not_lt (Memory.not_head_lt hrise (h d.1).symm))
        (Nat.le_of_not_lt (Memory.not_head_lt hrise' (h c.1)))
      have hcell : c = d := by
        refine Prod.ext haddr (Option.some.inj ?_)
        rw [← Memory.lookup_cons_self c rest, ← Memory.lookup_cons_self d rest', h, haddr]
      subst hcell
      refine congrArg (c :: ·) (ih hrest hrest' fun k => ?_)
      by_cases hk : c.1 = k
      · rw [Memory.lookup_eq_none (hk ▸ hrise), Memory.lookup_eq_none (hk ▸ hrise')]
      · have hboth := h k
        rwa [Memory.lookup, if_neg hk, Memory.lookup, if_neg hk] at hboth

/-- A canonical memory lists no address beyond 32 bits. -/
theorem Memory.lookup_of_wf {m : Memory} {k : Nat} (hm : m.wf) (hk : 2 ^ 32 ≤ k) : m.lookup k = none := by
  obtain ⟨-, hbound⟩ := hm
  induction m with
  | nil => rfl
  | cons c rest ih =>
    obtain ⟨hc, hrest⟩ := List.forall_mem_cons.1 hbound
    rw [Memory.lookup, if_neg (by omega), ih hrest]

/-- Settles O11: both lists answer every address alike, those of 32 bits by hypothesis and the others with nothing. -/
theorem canonicalMemoryIsUnique : Obligations.CanonicalMemoryIsUnique := by
  intro m m' hm hm' h
  refine Memory.eq_of_lookup_eq hm.1 hm'.1 fun k => ?_
  by_cases hk : k < 2 ^ 32
  · have hread := h (BitVec.ofNat 32 k)
    rwa [Memory.readByte, Memory.readByte, BitVec.toNat_ofNat, Nat.mod_eq_of_lt hk] at hread
  · rw [Memory.lookup_of_wf hm (by omega), Memory.lookup_of_wf hm' (by omega)]

/-! ### The image load (R50) -/

theorem toNat_add_ofNat (a : Word) (k : Nat) : (a + BitVec.ofNat 32 k).toNat = (a.toNat + k) % 2 ^ 32 := by
  rw [BitVec.toNat_add, BitVec.toNat_ofNat, Nat.add_mod_mod]

theorem Memory.readByte_storeWord_outside {m : Memory} {a b : Word} (v : Word)
    (h : ∀ k < 4, b ≠ a + BitVec.ofNat 32 k) : (m.storeWord a v).readByte b = m.readByte b := by
  have h0 : b ≠ a := by simpa using h 0 (by decide)
  have h1 : b ≠ a + 1 := h 1 (by decide)
  have h2 : b ≠ a + 2 := h 2 (by decide)
  have h3 : b ≠ a + 3 := h 3 (by decide)
  rw [Memory.readByte_storeWord, if_neg h3, if_neg h2, if_neg h1, if_neg h0]

theorem Memory.readWord_congr {m m' : Memory} {a : Word}
    (h : ∀ k < 4, m.readByte (a + BitVec.ofNat 32 k) = m'.readByte (a + BitVec.ofNat 32 k)) :
    m.readWord a = m'.readWord a := by
  have h0 : m.readByte a = m'.readByte a := by simpa using h 0 (by decide)
  have h1 : m.readByte (a + 1) = m'.readByte (a + 1) := h 1 (by decide)
  have h2 : m.readByte (a + 2) = m'.readByte (a + 2) := h 2 (by decide)
  have h3 : m.readByte (a + 3) = m'.readByte (a + 3) := h 3 (by decide)
  rw [Memory.readWord, Memory.readWord, h0, h1, h2, h3]

section
variable {m : Memory} {base : Word} {image : List Word}

/-- The load leaves a byte alone that no word of the image covers. The image's end may be 2^32, where the next address
wraps to 0 and no word is left. -/
theorem Memory.readByte_loadImage_outside {b : Word} (hfit : base.toNat + 4 * image.length ≤ 2 ^ 32)
    (hb : b.toNat < base.toNat ∨ base.toNat + 4 * image.length ≤ b.toNat) :
    (m.loadImage base image).readByte b = m.readByte b := by
  induction image generalizing m base with
  | nil => rfl
  | cons w ws ih =>
    rw [List.length_cons] at hfit hb
    have hnext : (base + 4).toNat = (base.toNat + 4) % 2 ^ 32 := toNat_add_ofNat base 4
    rw [Memory.loadImage, ih (by omega) (by omega), Memory.readByte_storeWord_outside]
    intro k hk heq
    have hk' := toNat_add_ofNat base k
    rw [← heq] at hk'
    omega

theorem Memory.readWord_loadImage (hfit : base.toNat + 4 * image.length ≤ 2 ^ 32) {k : Nat}
    (hk : k < image.length) : (m.loadImage base image).readWord (base + BitVec.ofNat 32 (4 * k)) = some image[k] := by
  induction image generalizing m base k with
  | nil => cases hk
  | cons w ws ih =>
    rw [List.length_cons] at hfit hk
    have hnext : (base + 4).toNat = (base.toNat + 4) % 2 ^ 32 := toNat_add_ofNat base 4
    rw [Memory.loadImage]
    cases k with
    | zero =>
      rw [Nat.mul_zero, BitVec.add_zero, List.getElem_cons_zero, ← m.readWord_storeWord_same base w]
      refine Memory.readWord_congr fun j hj => Memory.readByte_loadImage_outside (by omega) ?_
      rw [toNat_add_ofNat]
      omega
    | succ k =>
      have haddr : base + BitVec.ofNat 32 (4 * (k + 1)) = base + 4 + BitVec.ofNat 32 (4 * k) := by
        rw [Nat.mul_succ, Nat.add_comm, BitVec.ofNat_add, BitVec.add_assoc]
        rfl
      rw [haddr, List.getElem_cons_succ]
      exact ih (by omega) (by omega)

theorem Memory.mapped_loadImage {b : Word} (h : m.mapped b = true) : (m.loadImage base image).mapped b = true := by
  induction image generalizing m base with
  | nil => exact h
  | cons w ws ih => exact ih (Memory.mapped_storeWord base w h)

/-- The first fetch address is mapped exactly where there is an image (D39). -/
theorem Memory.mapped_loadImage_base : (Memory.loadImage [] base image).mapped base = true ↔ image ≠ [] := by
  cases image with
  | nil => exact iff_of_false (by simp [Memory.loadImage, Memory.mapped, Memory.readByte, Memory.lookup]) (by simp)
  | cons w ws =>
    have hfirst := Memory.mapped_storeWord_same [] base w
    exact iff_of_true (Memory.mapped_loadImage (m := Memory.storeWord [] base w) hfirst) (List.cons_ne_nil w ws)

end

/-! ### Launch (R33, R50, R241) -/

section
variable {cfg : BootConfig} {image : List Word}

theorem launch_eq_boot (halign : cfg.baseAddr.toNat % 4 = 0)
    (hfit : cfg.baseAddr.toNat + 4 * image.length ≤ 2 ^ 32) : launch cfg image = .next (boot cfg image) := by
  rw [launch, if_neg (not_not.2 halign), if_neg (Nat.not_lt.2 hfit)]

theorem launch_misaligned (halign : cfg.baseAddr.toNat % 4 ≠ 0) :
    launch cfg image = .refused (.misalignedBase cfg.baseAddr) := by
  rw [launch, if_pos halign]

theorem launch_wraps (halign : cfg.baseAddr.toNat % 4 = 0)
    (hwrap : 2 ^ 32 < cfg.baseAddr.toNat + 4 * image.length) :
    launch cfg image = .refused (.imageWraps cfg.baseAddr image.length) := by
  rw [launch, if_neg (not_not.2 halign), if_pos hwrap]

/-- A launch that is not refused kept the preconditions. -/
theorem of_launch_eq_next {s : State} (h : launch cfg image = .next s) :
    cfg.baseAddr.toNat % 4 = 0 ∧ s = boot cfg image := by
  by_cases halign : cfg.baseAddr.toNat % 4 = 0
  · by_cases hfit : cfg.baseAddr.toNat + 4 * image.length ≤ 2 ^ 32
    · rw [launch_eq_boot halign hfit] at h
      exact ⟨halign, (Host.Outcome.next.inj h).symm⟩
    · rw [launch_wraps halign (Nat.lt_of_not_le hfit)] at h
      cases h
  · rw [launch_misaligned halign] at h
    cases h

theorem boot_getReg (r : RegIdx) : (boot cfg image).getReg r = if r = 2 then cfg.spInit else 0#32 := by
  simp only [State.getReg, boot, bootRegs, Vector.get_eq_getElem, Vector.getElem_set, Vector.getElem_replicate]
  fin_cases r <;> rfl

theorem boot_run : (boot cfg image).run = if image = [] then .terminated .ranOffEnd else .running := by
  simp only [boot, Memory.mapped_loadImage_base, ite_not]

end

/-- Settles O14: a launch that keeps the preconditions is the load of the image into an empty memory. -/
theorem launchLoadsImage : Obligations.LaunchLoadsImage := by
  intro cfg image halign hfit
  exact ⟨_, launch_eq_boot halign hfit, fun k hk => Memory.readWord_loadImage hfit hk,
    fun a ha => Memory.readByte_loadImage_outside hfit ha⟩

/-- Settles O15: the state such a launch answers is `boot`'s. -/
theorem launchState : Obligations.LaunchState := by
  intro cfg image halign hfit
  exact ⟨_, launch_eq_boot halign hfit, boot_getReg, rfl, rfl, rfl, boot_run⟩

/-- A file that reads as words is a whole number of them. -/
theorem length_of_imageWords {order : WireOrder} {file : List Byte} {image : List Word}
    (h : imageWords order file = some image) : file.length = 4 * image.length := by
  induction file using imageWords.induct order generalizing image with
  | case1 =>
    cases h
    rfl
  | case2 b0 b1 b2 b3 rest ws hrest ih =>
    rw [imageWords, hrest] at h
    cases h
    simp only [List.length_cons, ih hrest]
    omega
  | case3 b0 b1 b2 b3 rest hrest =>
    rw [imageWords, hrest] at h
    cases h
  | case4 b rest hshort =>
    rw [imageWords] at h
    · cases h
    · exact hshort

/-- Settles O16: each precondition is tested by name, and a partial word leaves the file unread. -/
theorem badLaunchesAreRefused : Obligations.BadLaunchesAreRefused := by
  refine ⟨fun cfg image halign => launch_misaligned halign, fun cfg image halign hwrap => launch_wraps halign hwrap,
    fun cfg order file hpartial => ?_⟩
  unfold launchBytes
  cases hwords : imageWords order file with
  | none => rfl
  | some image =>
    have hlength := length_of_imageWords hwords
    omega

/-! ### Reset -/

theorem reset_eq_boot : State.reset = boot ⟨0x00000000#32, 0x00008000#32, false⟩ [] := rfl

/-- Settles O17: reset is the launch of no image (`reset_eq_boot`), with the registers of every launch. -/
theorem resetValues : Obligations.ResetValues :=
  ⟨reset_eq_boot, boot_getReg (cfg := ⟨0x00000000#32, 0x00008000#32, false⟩) (image := []), rfl, fun _ => rfl, rfl,
    rfl, rfl⟩

theorem boot_inv {cfg : BootConfig} (image : List Word) (halign : cfg.baseAddr.toNat % 4 = 0) :
    (boot cfg image).Inv where
  x0Zero := by rfl
  memWf := boot_mem_wf cfg image
  pcEven := by
    show cfg.baseAddr.toNat % 2 = 0
    omega
  runAgrees := by
    by_cases hm : (Memory.loadImage [] cfg.baseAddr image).mapped cfg.baseAddr = true <;>
      simp [State.runAgrees, boot, hm]

/-- Settles O58: every launch that is not refused, reset's among them, is a `boot` at an aligned address. -/
theorem launchesMeetInv : Obligations.LaunchesMeetInv := by
  refine ⟨reset_eq_boot ▸ boot_inv [] rfl, fun cfg image s h => ?_⟩
  obtain ⟨halign, rfl⟩ := of_launch_eq_next h
  exact boot_inv image halign

end Sys2Proof.Machine

/-! PROOFS. The step, the rest (spec/70_reset_and_hazards.md R242 to R244), and the environment call
(spec/47_system.md). How an instruction ends (`exec_ends`) and what it does to memory (`exec_keepsBytes_or_store`) are
read off the one specification each shared operation has; the environment call has one equation per service. -/

namespace Sys2Proof.Machine

/-! ### Taken and refused steps (R28, R242) -/

section
variable {s : State}

theorem step_taken (hrun : s.run = .running) (hpc : s.mem.mapped s.pc = true) : ∃ t, step s = .next t := by
  cases hfetch : s.fetchWord with
  | none => exact ⟨_, step_eq_raiseUnmapped hrun hpc hfetch⟩
  | some w =>
    rw [step_eq_runWord hrun hfetch]
    cases hdecode : decodeWord w with
    | instr i =>
      obtain ⟨t, ht, -⟩ := exec_shape i s
      exact ⟨t, (runWord_instr hdecode s).trans ht⟩
    | unimplemented w' => exact ⟨_, runWord_unimplemented hdecode s⟩

theorem State.Inv.mapped_pc (hinv : s.Inv) (hrun : s.run = .running) : s.mem.mapped s.pc = true := by
  simpa only [State.runAgrees, hrun] using hinv.runAgrees

end

/-- Settles O18: `step_eq_runWord`, with each case of `runWord`. -/
theorem stepRunsDecodedWord : Obligations.StepRunsDecodedWord := by
  intro s w hrun hfetch
  have hstep := step_eq_runWord hrun hfetch
  refine ⟨fun i hdecode => hstep.trans (runWord_instr hdecode s), fun hdecode => hstep.trans ?_⟩
  rw [runWord_unimplemented hdecode, execUnimplemented]

/-- Settles O19: a word one of whose bytes is unmapped is not fetched. -/
theorem partialFetchFaults : Obligations.PartialFetchFaults := by
  intro s hrun hpc hmiss
  simp only [Memory.mapped, Option.isSome_eq_false_iff, Option.isNone_iff_eq_none] at hmiss
  have hfetch : s.fetchWord = none := Memory.readWord_eq_none_iff.2 (.inr hmiss)
  rw [step_eq_raiseUnmapped hrun hpc hfetch]
  exact s.raiseUnmapped_spec .fetch s.pc 4

/-- Settles O20: the invariant maps a running pc, which is all a step asks. -/
theorem stepsExactlyWhileRunning : Obligations.StepsExactlyWhileRunning := fun _ hinv =>
  ⟨fun hrun => step_taken hrun (hinv.mapped_pc hrun), step_eq_refused⟩

/-- Settles O59: every reached state meets the invariant, by `launchesMeetInv` and `stepKeepsInv`. -/
theorem reachableStatesNeverStick : Obligations.ReachableStatesNeverStick := by
  intro cfg image start s hlaunch hreach
  have hinv : s.Inv := hreach.invariant (launchesMeetInv.2 cfg image start hlaunch) stepKeepsInv
  obtain ⟨htaken, hrefused⟩ := stepsExactlyWhileRunning s hinv
  by_cases hrun : s.run = .running
  · exact .inl (htaken hrun)
  · exact .inr ⟨hrun, hrefused hrun⟩

/-! ### The services of the environment call (R200 to R205) -/

theorem exec_ecall (s : State) (ignored : BitVec 25) : exec (.ecall ignored) s = .next (ecallService s) := rfl

section
variable {s : State}

theorem ecallService_printInt (h : s.getReg 10 = 1#32) :
    ecallService s = (s.emit (.printInt (s.getReg 11))).advance := by
  simp [ecallService, regA0, regA1, h]

theorem ecallService_printChar (h : s.getReg 10 = 11#32) :
    ecallService s = (s.emit (.printChar (s.getReg 11))).advance := by
  simp [ecallService, regA0, regA1, h]

theorem ecallService_noop (h : s.getReg 10 = 4#32 ∨ s.getReg 10 = 9#32) : ecallService s = s.advance := by
  rcases h with h | h <;> simp [ecallService, regA0, h]

theorem ecallService_exit (h : s.getReg 10 = 10#32) : ecallService s = s.terminate .ecallExit := by
  simp [ecallService, regA0, h]

theorem ecallService_otherExit (h : s.getReg 10 ∉ [1#32, 4#32, 9#32, 10#32, 11#32]) :
    ecallService s = (s.setReg 11 0#32).terminate (.ecallOtherExit (s.getReg 10)) := by
  simp_all [ecallService, regA0, regA1]

end

/-- Every value of a0 is one of the services. -/
theorem ecall_services (s : State) :
    s.getReg 10 = 1#32 ∨ s.getReg 10 = 11#32 ∨ (s.getReg 10 = 4#32 ∨ s.getReg 10 = 9#32) ∨
      s.getReg 10 = 10#32 ∨ s.getReg 10 ∉ [1#32, 4#32, 9#32, 10#32, 11#32] := by
  simp only [List.mem_cons, List.not_mem_nil, or_false]
  tauto

/-- A printing service appends its event and goes on. -/
theorem emit_advance_spec (s : State) (e : ConsoleEvent) :
    ∃ t, Host.Outcome.next (ρ := Refusal) (φ := Fault) (s.emit e).advance = .next t ∧ SameRegs s t ∧ SameBytes s t ∧
      t.console = s.console ++ [e] ∧ t.diags = s.diags ∧ EndsAt s t (s.pc + 4#32) := by
  obtain ⟨t, ht, hregs, hbytes, ⟨hconsole, hdiags⟩, he⟩ := (s.emit e).advance_spec
  exact ⟨t, ht, hregs, hbytes, hconsole, hdiags, he⟩

/-! ### Memory (R41, R48) -/

/-- Settles O12: no shape of next state unmaps a byte (`ExecShape.mapped`); the two steps without an instruction leave
memory alone. -/
theorem stepsNeverUnmap : Obligations.StepsNeverUnmap := by
  intro s t a h hmapped
  obtain ⟨-, -, ⟨-, rfl⟩ | ⟨w, i, -, -, hexec⟩ | ⟨w, w', -, -, rfl⟩⟩ := step_cases h
  · exact hmapped
  · exact (ExecShape.of_exec hexec).mapped hmapped
  · simpa using hmapped

/-- A next state in which every byte reads as before. -/
def OutcomeKeepsBytes (s : State) (o : Host.Outcome State Fault Refusal) : Prop := ∃ t, o = .next t ∧ SameBytes s t

section
variable {s : State} {rd : RegIdx} {v target : Word} {o : Host.Outcome State Fault Refusal}

theorem RegisterResult.keepsBytes : RegisterResult s rd v o → OutcomeKeepsBytes s o
  | ⟨t, ho, _, hbytes, _⟩ => ⟨t, ho, hbytes⟩

theorem OnlyAdvances.keepsBytes : OnlyAdvances s o → OutcomeKeepsBytes s o
  | ⟨t, ho, _, hbytes, _⟩ => ⟨t, ho, hbytes⟩

theorem JumpResult.keepsBytes {link : Word} : JumpResult s rd link target o → OutcomeKeepsBytes s o
  | ⟨t, ho, _, hbytes, _⟩ => ⟨t, ho, hbytes⟩

theorem RedirectsTo.keepsBytes : RedirectsTo s target o → OutcomeKeepsBytes s o
  | ⟨t, ho, _, hbytes, _⟩ => ⟨t, ho, hbytes⟩

theorem FaultResult.keepsBytes {r : FaultRecord} : FaultResult s r o → OutcomeKeepsBytes s o
  | ⟨t, ho, _, hbytes, _⟩ => ⟨t, ho, hbytes⟩

end

section
variable (s : State)

theorem branchIf_keepsBytes (taken : Bool) (offset : BitVec 13) : OutcomeKeepsBytes s (branchIf taken offset s) := by
  cases taken with
  | true => exact (s.redirect_redirects _).keepsBytes
  | false => exact s.advance_spec.keepsBytes

theorem retireLoad_keepsBytes (rd : RegIdx) (addr : Word) (n : Nat) (value : Option Word) :
    OutcomeKeepsBytes s (.next (s.retireLoad rd addr n value)) := by
  cases value with
  | some v => exact (s.retire_spec rd v).keepsBytes
  | none => exact (s.raiseUnmapped_spec .load addr n).keepsBytes

theorem ecallService_keepsBytes : OutcomeKeepsBytes s (.next (ecallService s)) := by
  refine ⟨_, rfl, fun a => congrArg (Memory.readByte · a) ?_⟩
  rcases ecall_services s with h | h | h | h | h
  · simp [ecallService_printInt h]
  · simp [ecallService_printChar h]
  · simp [ecallService_noop h]
  · simp [ecallService_exit h]
  · simp [ecallService_otherExit h]

end

/-- An instruction keeps every byte, or is a store. -/
theorem exec_keepsBytes_or_store (i : Instr) (s : State) :
    OutcomeKeepsBytes s (exec i s) ∨
      ∃ rs1 rs2 imm, i = .sb rs1 rs2 imm ∨ i = .sh rs1 rs2 imm ∨ i = .sw rs1 rs2 imm := by
  cases i with
  | sb rs1 rs2 imm => exact .inr ⟨rs1, rs2, imm, .inl rfl⟩
  | sh rs1 rs2 imm => exact .inr ⟨rs1, rs2, imm, .inr (.inl rfl)⟩
  | sw rs1 rs2 imm => exact .inr ⟨rs1, rs2, imm, .inr (.inr rfl)⟩
  | lui | auipc => exact .inl (s.retire_spec _ _).keepsBytes
  | jal | jalr => exact .inl (s.jump_spec _ _ _).keepsBytes
  | beq | bne | blt | bge | bltu | bgeu => exact .inl (branchIf_keepsBytes s _ _)
  | lb | lh | lw | lbu | lhu => exact .inl (retireLoad_keepsBytes s _ _ _ _)
  | addi | slti | sltiu | xori | ori | andi | slli | srli | srai => exact .inl (s.retire_spec _ _).keepsBytes
  | add | sub | sll | slt | sltu | xor | srl | sra | or | and => exact .inl (s.retire_spec _ _).keepsBytes
  | mul | mulh | mulhsu | mulhu | div | divu | rem | remu => exact .inl (s.retire_spec _ _).keepsBytes
  | fence => exact .inl s.advance_spec.keepsBytes
  | ecall => exact .inl (ecallService_keepsBytes s)

/-- Settles O13: an instruction that changed a byte did not keep them all, so it is a store. -/
theorem onlyStoresChangeMemory : Obligations.OnlyStoresChangeMemory := by
  rintro i s t hexec ⟨a, ha⟩
  refine (exec_keepsBytes_or_store i s).resolve_left ?_
  rintro ⟨u, hu, hbytes⟩
  cases hexec.symm.trans hu
  exact ha (hbytes a)

theorem exec_sw (s : State) (rs1 rs2 : RegIdx) (imm : BitVec 12) :
    exec (.sw rs1 rs2 imm) s = .next (s.retireStore (s.mem.storeWord (s.effAddr rs1 imm) (s.getReg rs2))) := rfl

/-- Settles O24: the store maps the next pc and reads back there, being at that address. -/
theorem storeIsSeenByNextFetch : Obligations.StoreIsSeenByNextFetch := by
  intro s rs1 rs2 imm hrun haddr
  have hea : s.effAddr rs1 imm = s.pc + 4 := haddr
  have hread := Memory.readWord_storeWord_same s.mem (s.pc + 4) (s.getReg rs2)
  have hmapped := Memory.mapped_storeWord_same s.mem (s.pc + 4) (s.getReg rs2)
  rw [exec_sw, hea]
  refine ⟨_, rfl, ?_, State.retireStore_pc _ _, ?_⟩
  · simpa [State.retireStore, State.advance, hrun] using hmapped
  · simpa using hread

/-! ### How a step ends (R25, R243) -/

/-- A step ends at a new pc, or where it began, the run faulted or ended by an environment call. -/
def Ends (s t : State) (next : Word) : Prop :=
  EndsAt s t next ∨ (t.pc = s.pc ∧ t.run ≠ .running ∧ t.run ≠ .terminated .ranOffEnd)

def OutcomeEnds (s : State) (next : Word) (o : Host.Outcome State Fault Refusal) : Prop :=
  ∃ t, o = .next t ∧ Ends s t next

section
variable {s : State} {rd : RegIdx} {v target : Word} {o : Host.Outcome State Fault Refusal}

theorem RegisterResult.ends : RegisterResult s rd v o → OutcomeEnds s (s.pc + 4#32) o
  | ⟨t, ho, _, _, _, he⟩ => ⟨t, ho, .inl he⟩

theorem OnlyAdvances.ends : OnlyAdvances s o → OutcomeEnds s (s.pc + 4#32) o
  | ⟨t, ho, _, _, _, he⟩ => ⟨t, ho, .inl he⟩

theorem JumpResult.ends {link : Word} : JumpResult s rd link target o → OutcomeEnds s target o
  | ⟨t, ho, _, _, _, _, he⟩ => ⟨t, ho, .inl he⟩

theorem RedirectsTo.ends : RedirectsTo s target o → OutcomeEnds s target o
  | ⟨t, ho, _, _, _, _, he⟩ => ⟨t, ho, .inl he⟩

theorem StoreResult.ends {ea : Word} {n : Nat} : StoreResult s ea n v o → OutcomeEnds s (s.pc + 4#32) o
  | ⟨t, ho, _, _, _, _, he⟩ => ⟨t, ho, .inl he⟩

theorem FaultResult.ends {r : FaultRecord} (next : Word) : FaultResult s r o → OutcomeEnds s next o
  | ⟨t, ho, _, _, _, hpc, hrun⟩ => ⟨t, ho, .inr ⟨hpc, by simp [hrun], by simp [hrun]⟩⟩

end

section
variable (s : State)

theorem branchIf_ends (taken : Bool) (offset : BitVec 13) :
    OutcomeEnds s ((if taken then some (s.branchTarget offset) else none).getD (s.pc + 4#32))
      (branchIf taken offset s) := by
  cases taken with
  | true => exact (s.redirect_redirects _).ends
  | false => exact s.advance_spec.ends

theorem retireLoad_ends (rd : RegIdx) (addr : Word) (n : Nat) (value : Option Word) :
    OutcomeEnds s (s.pc + 4#32) (.next (s.retireLoad rd addr n value)) := by
  cases value with
  | some v => exact (s.retire_spec rd v).ends
  | none => exact (s.raiseUnmapped_spec .load addr n).ends _

theorem ecallService_ends : OutcomeEnds s (s.pc + 4#32) (.next (ecallService s)) := by
  rcases ecall_services s with h | h | h | h | h
  · obtain ⟨t, ht, -, -, -, -, he⟩ := emit_advance_spec s (.printInt (s.getReg 11))
    exact ⟨t, ecallService_printInt h ▸ ht, .inl he⟩
  · obtain ⟨t, ht, -, -, -, -, he⟩ := emit_advance_spec s (.printChar (s.getReg 11))
    exact ⟨t, ecallService_printChar h ▸ ht, .inl he⟩
  · rw [ecallService_noop h]
    exact s.advance_spec.ends
  · exact ⟨_, rfl, .inr (by simp [ecallService_exit h])⟩
  · exact ⟨_, rfl, .inr (by simp [ecallService_otherExit h])⟩

end

/-- The instruction's redirect target, where it has one, else pc + 4, is where it ends, unless it ends the run. -/
theorem exec_ends (i : Instr) (s : State) :
    OutcomeEnds s ((redirectTargetOf i s).getD (s.pc + 4#32)) (exec i s) := by
  cases i with
  | lui | auipc => exact (s.retire_spec _ _).ends
  | jal | jalr => exact (s.jump_spec _ _ _).ends
  | beq | bne | blt | bge | bltu | bgeu => exact branchIf_ends s _ _
  | lb | lh | lw | lbu | lhu => exact retireLoad_ends s _ _ _ _
  | sb => exact (s.storeByte_spec _ _).ends
  | sh => exact (s.storeHalf_spec _ _).ends
  | sw => exact (s.storeWord_spec _ _).ends
  | addi | slti | sltiu | xori | ori | andi | slli | srli | srai => exact (s.retire_spec _ _).ends
  | add | sub | sll | slt | sltu | xor | srl | sra | or | and => exact (s.retire_spec _ _).ends
  | mul | mulh | mulhsu | mulhu | div | divu | rem | remu => exact (s.retire_spec _ _).ends
  | fence => exact s.advance_spec.ends
  | ecall => exact ecallService_ends s

section
variable {s t : State} {w : Word}

theorem redirectTarget_instr {i : Instr} (hfetch : s.fetchWord = some w) (hdecode : decodeWord w = .instr i) :
    s.redirectTarget = redirectTargetOf i s := by
  simp [State.redirectTarget, hfetch, hdecode]

theorem redirectTarget_unimplemented {w' : Word} (hfetch : s.fetchWord = some w)
    (hdecode : decodeWord w = .unimplemented w') : s.redirectTarget = none := by
  simp [State.redirectTarget, hfetch, hdecode]

theorem step_ends (h : step s = .next t) : Ends s t (s.redirectTarget.getD (s.pc + 4#32)) := by
  obtain ⟨-, -, ⟨-, rfl⟩ | ⟨w, i, hfetch, hdecode, hexec⟩ | ⟨w, w', hfetch, hdecode, rfl⟩⟩ := step_cases h
  · exact .inr (by simp)
  · obtain ⟨u, hu, he⟩ := exec_ends i s
    cases hexec.symm.trans hu
    rwa [redirectTarget_instr hfetch hdecode]
  · rw [redirectTarget_unimplemented hfetch hdecode]
    obtain ⟨-, -, -, he⟩ := (s.diagnose (.unimplementedOpcode w')).goto_spec (s.pc + 4)
    exact .inl he

/-- Only the encodings of JAL, JALR and the branches redirect. -/
theorem redirectTargetOf_eq_none {i : Instr} (s : State)
    (h : (opcodeOf (encode i)).toNat ∉ [0x6F, 0x67, 0x63]) : redirectTargetOf i s = none := by
  cases i with
  | jal | jalr | beq | bne | blt | bge | bltu | bgeu => simp [encode] at h
  | _ => rfl

theorem redirectTarget_eq_none (hfetch : s.fetchWord = some w) (hop : w.toNat % 128 ∉ [0x6F, 0x67, 0x63]) :
    s.redirectTarget = none := by
  cases hdecode : decodeWord w with
  | instr i =>
    have hsame := decodeWord_hasOpcode w
    rw [hdecode, Decoded.hasOpcode_instr] at hsame
    rw [redirectTarget_instr hfetch hdecode]
    exact redirectTargetOf_eq_none s (by rwa [hsame, opcodeOf_toNat])
  | unimplemented w' => exact redirectTarget_unimplemented hfetch hdecode

/-- A step that goes on, or runs off the end, ends at its new pc. -/
theorem Ends.endsAt {next : Word} (he : Ends s t next) (hrun : t.run = .running ∨ t.run = .terminated .ranOffEnd) :
    EndsAt s t next :=
  he.resolve_right fun ⟨_, hne, hne'⟩ => hrun.elim hne hne'

/-- A step that faults, or ends the run otherwise, keeps the pc. -/
theorem Ends.pc_eq {next : Word} (he : Ends s t next) (hstart : s.run = .running) (hrun : t.run ≠ .running)
    (hoff : t.run ≠ .terminated .ranOffEnd) : t.pc = s.pc := by
  rcases he with ⟨-, hend⟩ | ⟨hpc, -⟩
  · split at hend
    · exact absurd (hend.trans hstart) hrun
    · exact absurd hend hoff
  · exact hpc

theorem stepResult_of_running (h : step s = .next t) (hrun : t.run = .running) :
    s.stepResult = some (s.redirectTarget.elim .continues .redirected) := by
  simp only [State.stepResult, h, hrun]
  cases s.redirectTarget <;> rfl

end

/-- Settles O22: the run state agrees with the pc and memory after every step (`step_runAgrees`). -/
theorem endOfRunIsUnmappedPc : Obligations.EndOfRunIsUnmappedPc := by
  intro s t h
  have hagrees := step_runAgrees h
  refine ⟨fun hoff => ?_, fun hrun => ?_⟩
  · simpa [State.runAgrees, hoff, Memory.mapped] using hagrees
  · simpa [State.runAgrees, hrun, Memory.mapped, Option.isSome_iff_exists] using hagrees

/-- Settles O23: `step_ends`, with no redirect for the words of other opcodes. -/
theorem pcAdvance : Obligations.PcAdvance := by
  intro s t h
  have he := step_ends h
  obtain ⟨hstart, -⟩ := step_cases h
  refine ⟨?_, ?_, fun w hfetch hop hrun => ?_⟩
  · rintro ⟨r, hr⟩
    exact he.pc_eq hstart (by simp [hr]) (by simp [hr])
  · rintro ⟨c, hc, hne⟩
    exact he.pc_eq hstart (by simp [hc]) (by simpa [hc] using hne)
  · obtain ⟨hpc, -⟩ := he.endsAt hrun
    rwa [redirectTarget_eq_none hfetch hop] at hpc

/-- Settles O25: the result is computed from the redirect target, and so is where the step ends. -/
theorem stepResultNamesNextPc : Obligations.StepResultNamesNextPc := by
  intro s t h hrun
  obtain ⟨hpc, -⟩ := (step_ends h).endsAt (.inl hrun)
  rw [stepResult_of_running h hrun]
  cases htarget : s.redirectTarget with
  | none =>
    rw [htarget] at hpc
    exact ⟨fun _ hr => by simp at hr, fun _ => hpc, .inl rfl⟩
  | some target =>
    rw [htarget] at hpc
    exact ⟨fun _ hr => by simpa [hpc] using hr, fun hr => by simp at hr, .inr ⟨target, rfl⟩⟩

/-! ### The environment call and the unimplemented path (R200 to R210) -/

/-- Settles O51: one equation per service; a printing service is `emit_advance_spec`. -/
theorem continuingServices : Obligations.ContinuingServices := by
  intro s ignored
  rw [exec_ecall]
  refine ⟨fun h => ?_, fun h => ?_, fun h => ?_⟩
  · rw [ecallService_printInt h]
    exact emit_advance_spec s _
  · rw [ecallService_printChar h]
    exact emit_advance_spec s _
  · rw [ecallService_noop h]
    exact s.advance_spec

/-- Settles O52: the exits change the run state, and the generic one x11. -/
theorem exitServices : Obligations.ExitServices := by
  intro s ignored
  rw [exec_ecall]
  refine ⟨fun h => ⟨_, rfl, ?_⟩, fun h => ⟨_, rfl, ?_⟩⟩
  · rw [ecallService_exit h]
    exact ⟨fun _ => rfl, fun _ => rfl, ⟨rfl, rfl⟩, rfl, rfl⟩
  · have hother : s.getReg 10 ∉ [1#32, 4#32, 9#32, 10#32, 11#32] := fun hmem =>
      h (by simpa using List.mem_map_of_mem (f := BitVec.toNat) hmem)
    rw [ecallService_otherExit hother]
    exact ⟨s.setReg_writes 11 0#32, fun a => by simp, by simp [Silent], by simp, by simp⟩

theorem decodeWord_of_opcode_system {w : Word} (hop : w.toNat % 128 = 0x73) :
    decodeWord w = .instr (.ecall (ignoredOf w)) :=
  decodeWord_of_system (BitVec.eq_of_toNat_eq ((opcodeOf_toNat w).trans hop))

theorem runWord_of_opcode_system {w : Word} (hop : w.toNat % 128 = 0x73) (s : State) :
    runWord w s = .next (ecallService s) :=
  (runWord_instr (decodeWord_of_opcode_system hop) s).trans (exec_ecall s _)

theorem systemFunct3_ignoredOf (w : Word) : systemFunct3 (ignoredOf w) = funct3Of w := by
  apply BitVec.eq_of_getLsbD_eq
  intro k hk
  interval_cases k <;> simp [systemFunct3, ignoredOf, funct3Of]

/-- Settles O53: every word of opcode 0x73 decodes to an environment call, which ignores the other bits; csr_noop reads
funct3 among them. -/
theorem systemWords : Obligations.SystemWords := by
  refine ⟨fun s w hop => ?_, fun s w hop h3 => ?_, fun s w hop h3 => ?_⟩
  · rw [runWord_of_opcode_system hop, runWord_of_opcode_system (w := 0x00000073#32) (by decide)]
  · have hzero : systemFunct3 (ignoredOf w) = 0#3 := by
      rw [systemFunct3_ignoredOf]
      exact BitVec.eq_of_toNat_eq ((funct3Of_toNat w).trans h3)
    rw [runWord_of_opcode_system hop, execSystemUnder, if_pos hzero]
  · have hne : systemFunct3 (ignoredOf w) ≠ 0#3 := by
      rw [systemFunct3_ignoredOf]
      exact fun hzero => h3 ((funct3Of_toNat w).symm.trans (congrArg BitVec.toNat hzero))
    rw [execSystemUnder, if_neg hne]
    exact s.advance_spec

/-- Settles O55: the unimplemented path is an advance after the word is logged. -/
theorem unimplementedWordResult : Obligations.UnimplementedWordResult := by
  intro s w hdecode
  rw [runWord_unimplemented hdecode]
  obtain ⟨t, ht, hregs, hbytes, ⟨hconsole, hdiags⟩, he⟩ := (s.diagnose (.unimplementedOpcode w)).advance_spec
  exact ⟨t, ht, hregs, hbytes, hconsole, hdiags, he⟩

/-- Only the environment call prints. -/
theorem ExecShape.ecall_of_console {i : Instr} {s t : State} (shape : ExecShape i s t)
    (h : t.console ≠ s.console) : ∃ ignored, i = .ecall ignored := by
  cases shape with
  | print ignored _ ecall => exact ⟨ignored, ecall⟩
  | retire | advance | jump | branch | loadFault | storeByte | storeHalf | storeWord | exit | otherExit =>
    exact absurd (by simp) h

/-- What a service that changes the console has appended. -/
theorem ecallService_console {s : State} (h : (ecallService s).console ≠ s.console) :
    (s.getReg 10 = 1#32 ∧ (ecallService s).console = s.console ++ [.printInt (s.getReg 11)]) ∨
      (s.getReg 10 = 11#32 ∧ (ecallService s).console = s.console ++ [.printChar (s.getReg 11)]) := by
  rcases ecall_services s with ha | ha | ha | ha | ha
  · exact .inl ⟨ha, by simp [ecallService_printInt ha]⟩
  · exact .inr ⟨ha, by simp [ecallService_printChar ha]⟩
  · exact absurd (by simp [ecallService_noop ha]) h
  · exact absurd (by simp [ecallService_exit ha]) h
  · exact absurd (by simp [ecallService_otherExit ha]) h

/-- Settles O56: the step ran an environment call, and of its services two print. -/
theorem consoleIsAppendOnly : Obligations.ConsoleIsAppendOnly := by
  intro s t h hconsole
  obtain ⟨-, -, ⟨-, rfl⟩ | ⟨w, i, hfetch, hdecode, hexec⟩ | ⟨w, w', -, -, rfl⟩⟩ := step_cases h
  · exact absurd rfl hconsole
  · obtain ⟨ignored, rfl⟩ := (ExecShape.of_exec hexec).ecall_of_console hconsole
    cases (exec_ecall s ignored).symm.trans hexec
    exact ⟨w, hfetch, opcode_of_decode_ecall hdecode, ecallService_console hconsole⟩
  · exact absurd (by simp) hconsole

end Sys2Proof.Machine

/-! PROOFS. The instructions' results, the rest (spec/42_control_transfer.md to spec/46_multiply_divide.md). Each
instruction ends in a shared operation, whose specification gives its effect and frame; what is left is the value, the
address or the condition as exact arithmetic. -/

namespace Sys2Proof.Machine

/-! ### JALR and the branches (R101 to R108) -/

/-- R101: clearing bit 0 takes a word down to the even number below it. -/
theorem and_clear_bit_zero (y : Word) : y &&& 0xFFFFFFFE#32 = BitVec.ofNat 32 (2 * (y.toNat / 2)) := by
  have hshift : y &&& 0xFFFFFFFE#32 = (y >>> 1) <<< 1 := by
    apply BitVec.eq_of_getLsbD_eq
    intro k hk
    interval_cases k <;> simp
  apply BitVec.eq_of_toNat_eq
  rw [hshift, BitVec.toNat_shiftLeft, BitVec.toNat_ushiftRight, Nat.shiftLeft_eq, Nat.shiftRight_eq_div_pow,
    BitVec.toNat_ofNat, Nat.mul_comm, Nat.pow_one]

theorem State.jalrTarget_eq (s : State) (rs1 : RegIdx) (imm : BitVec 12) :
    s.jalrTarget rs1 imm = BitVec.ofInt 32 (2 * (((s.getReg rs1).toNat + imm.toInt) / 2)) := by
  have hsum : s.getReg rs1 + imm12 imm = BitVec.ofInt 32 ((s.getReg rs1).toNat + imm.toInt) := s.effAddr_eq rs1 imm
  rw [State.jalrTarget, hsum, and_clear_bit_zero]
  apply BitVec.eq_of_toNat_eq
  rw [BitVec.toNat_ofNat, BitVec.toNat_ofInt, BitVec.toNat_ofInt]
  omega

theorem exec_jalr (s : State) (rd rs1 : RegIdx) (imm : BitVec 12) :
    exec (.jalr rd rs1 imm) s = .next ((s.setReg rd s.link).redirect (s.jalrTarget rs1 imm)) := rfl

/-- Settles O28: JALR is the jump of `State.jump_spec`, its target the exact arithmetic of R101. -/
theorem jalrResult : Obligations.JalrResult := by
  intro s rd rs1 imm
  rw [exec_jalr, ← s.link_eq, ← s.jalrTarget_eq]
  exact s.jump_spec rd s.link (s.jalrTarget rs1 imm)

/-- R102: a branch redirects where its condition holds and advances where it does not. -/
theorem branchIf_result {taken : Bool} {cond : Prop} (s : State) (offset : BitVec 13) (h : taken = true ↔ cond) :
    BranchResult s cond offset (branchIf taken offset s) := by
  refine ⟨fun hcond => ?_, fun hcond => ?_⟩
  · rw [h.2 hcond, ← add_sext32_eq]
    exact s.redirect_redirects (s.branchTarget offset)
  · rw [Bool.eq_false_iff.2 (mt h.1 hcond)]
    exact s.advance_spec

section
variable (s : State) (rs1 rs2 : RegIdx)

theorem takenBeq_iff : takenBeq s rs1 rs2 = true ↔ (s.getReg rs1).toNat = (s.getReg rs2).toNat := by
  rw [takenBeq, beq_iff_eq, BitVec.toNat_inj]

theorem takenBne_iff : takenBne s rs1 rs2 = true ↔ (s.getReg rs1).toNat ≠ (s.getReg rs2).toNat := by
  rw [takenBne, bne_iff_ne, ne_eq, ne_eq, BitVec.toNat_inj]

theorem takenBlt_iff : takenBlt s rs1 rs2 = true ↔ (s.getReg rs1).toInt < (s.getReg rs2).toInt := decide_eq_true_iff

theorem takenBge_iff : takenBge s rs1 rs2 = true ↔ (s.getReg rs1).toInt ≥ (s.getReg rs2).toInt := by
  rw [takenBge, lessSigned, Bool.not_eq_true', decide_eq_false_iff_not, not_lt, ge_iff_le]

theorem takenBltu_iff : takenBltu s rs1 rs2 = true ↔ (s.getReg rs1).toNat < (s.getReg rs2).toNat :=
  decide_eq_true_iff

theorem takenBgeu_iff : takenBgeu s rs1 rs2 = true ↔ (s.getReg rs1).toNat ≥ (s.getReg rs2).toNat := by
  rw [takenBgeu, lessUnsigned, Bool.not_eq_true', decide_eq_false_iff_not, not_lt, ge_iff_le]

end

/-- Settles O29: `branchIf_result` at the two conditions. -/
theorem equalityBranches : Obligations.EqualityBranches := fun s rs1 rs2 offset =>
  ⟨branchIf_result s offset (takenBeq_iff s rs1 rs2), branchIf_result s offset (takenBne_iff s rs1 rs2)⟩

/-- Settles O30: `branchIf_result` at the four conditions. -/
theorem orderBranches : Obligations.OrderBranches := fun s rs1 rs2 offset =>
  ⟨branchIf_result s offset (takenBlt_iff s rs1 rs2), branchIf_result s offset (takenBge_iff s rs1 rs2),
    branchIf_result s offset (takenBltu_iff s rs1 rs2), branchIf_result s offset (takenBgeu_iff s rs1 rs2)⟩

/-! ### Loads and stores (R120 to R130) -/

section
variable (s : State) (rd rs1 rs2 : RegIdx) (imm : BitVec 12)

theorem exec_lb :
    exec (.lb rd rs1 imm) s =
      .next (s.retireLoad rd (s.effAddr rs1 imm) 1 ((s.mem.readByte (s.effAddr rs1 imm)).map sext32)) := rfl

theorem exec_lbu :
    exec (.lbu rd rs1 imm) s =
      .next (s.retireLoad rd (s.effAddr rs1 imm) 1 ((s.mem.readByte (s.effAddr rs1 imm)).map zext32)) := rfl

theorem exec_lh :
    exec (.lh rd rs1 imm) s =
      .next (s.retireLoad rd (s.effAddr rs1 imm) 2 ((s.mem.readHalf (s.effAddr rs1 imm)).map sext32)) := rfl

theorem exec_lhu :
    exec (.lhu rd rs1 imm) s =
      .next (s.retireLoad rd (s.effAddr rs1 imm) 2 ((s.mem.readHalf (s.effAddr rs1 imm)).map zext32)) := rfl

theorem exec_lw :
    exec (.lw rd rs1 imm) s =
      .next (s.retireLoad rd (s.effAddr rs1 imm) 4 (s.mem.readWord (s.effAddr rs1 imm))) := rfl

theorem exec_sh :
    exec (.sh rs1 rs2 imm) s = .next (s.retireStore (s.mem.storeHalf (s.effAddr rs1 imm) (s.getReg rs2))) := rfl

/-- R120, D6: the bytes after the effective address, at addresses modulo 2^32. -/
theorem State.effAddr_add_eq (k : Int) :
    BitVec.ofInt 32 ((s.getReg rs1).toNat + imm.toInt + k) = s.effAddr rs1 imm + BitVec.ofInt 32 k := by
  rw [BitVec.ofInt_add, ← s.effAddr_eq]

variable {s rd}

/-- A load of a value that is there retires it. -/
theorem retireLoad_some {addr v : Word} {n : Nat} {value : Option Word} (h : value = some v) :
    RegisterResult s rd v (.next (s.retireLoad rd addr n value)) :=
  (s.retireLoad_spec rd addr n value).1 v h

theorem retireLoad_none {addr : Word} {n : Nat} {value : Option Word} (h : value = none) :
    FaultResult s ⟨.load, addr, n, s.pc⟩ (.next (s.retireLoad rd addr n value)) :=
  (s.retireLoad_spec rd addr n value).2 h

end

theorem sext32_eq_ofInt {n : Nat} (v : BitVec n) : sext32 v = BitVec.ofInt 32 v.toInt := rfl

theorem zext32_eq_ofNat {n : Nat} (v : BitVec n) : zext32 v = BitVec.ofNat 32 v.toNat := (BitVec.ofNat_toNat 32 v).symm

/-- The sign of a half-word is that of its upper byte. -/
theorem halfOfBytes_toInt (b0 b1 : Byte) : (halfOfBytes b0 b1).toInt = b0.toNat + 2 ^ 8 * b1.toInt := by
  rw [BitVec.toInt_eq_toNat_cond, halfOfBytes_toNat, BitVec.toInt_eq_toNat_cond]
  have h0 := b0.isLt
  split <;> split <;> omega

/-- Settles O31: a mapped byte is retired, extended. -/
theorem byteLoads : Obligations.ByteLoads := by
  intro s rd rs1 imm b hread
  rw [← s.effAddr_eq] at hread
  rw [exec_lb, exec_lbu, hread, ← sext32_eq_ofInt, ← zext32_eq_ofNat]
  exact ⟨retireLoad_some rfl, retireLoad_some rfl⟩

/-- Settles O32: two mapped bytes are a half-word, whose extensions are weighted sums. -/
theorem halfLoads : Obligations.HalfLoads := by
  intro s rd rs1 imm b0 b1 h0 h1
  rw [← s.effAddr_eq] at h0
  rw [s.effAddr_add_eq] at h1
  have hread := Memory.readHalf_of_bytes h0 h1
  rw [exec_lh, exec_lhu, hread, ← halfOfBytes_toInt, ← halfOfBytes_toNat, ← sext32_eq_ofInt, ← zext32_eq_ofNat]
  exact ⟨retireLoad_some rfl, retireLoad_some rfl⟩

/-- Settles O33: four mapped bytes are a word, which is their weighted sum. -/
theorem wordLoads : Obligations.WordLoads := by
  intro s rd rs1 imm b0 b1 b2 b3 h0 h1 h2 h3
  rw [← s.effAddr_eq] at h0
  rw [s.effAddr_add_eq] at h1 h2 h3
  rw [exec_lw, ← wordOfBytes_eq]
  exact retireLoad_some (Memory.readWord_of_bytes h0 h1 h2 h3)

theorem Memory.readHalf_eq_none {m : Memory} {a : Word} (h : ∃ k < 2, m.readByte (a + BitVec.ofNat 32 k) = none) :
    m.readHalf a = none := by
  obtain ⟨k, hk, hnone⟩ := h
  rw [Memory.readHalf_eq_none_iff]
  interval_cases k
  · exact .inl (by simpa using hnone)
  · exact .inr hnone

theorem Memory.readWord_eq_none {m : Memory} {a : Word} (h : ∃ k < 4, m.readByte (a + BitVec.ofNat 32 k) = none) :
    m.readWord a = none := by
  obtain ⟨k, hk, hnone⟩ := h
  rw [Memory.readWord_eq_none_iff]
  interval_cases k
  · exact .inl (by simpa using hnone)
  · exact .inr (.inl hnone)
  · exact .inr (.inr (.inl hnone))
  · exact .inr (.inr (.inr hnone))

/-- Settles O34: a read that misses a byte gives no value, and the load's end faults whatever rd is. -/
theorem unmappedLoadsFault : Obligations.UnmappedLoadsFault := by
  intro s rd rs1 imm ea hea
  rw [← s.effAddr_eq] at hea
  subst hea
  refine ⟨fun h => ?_, fun h => ?_, fun h => ?_⟩
  · rw [exec_lb, exec_lbu, h]
    exact ⟨retireLoad_none rfl, retireLoad_none rfl⟩
  · rw [exec_lh, exec_lhu, Memory.readHalf_eq_none h]
    exact ⟨retireLoad_none rfl, retireLoad_none rfl⟩
  · rw [exec_lw]
    exact retireLoad_none (Memory.readWord_eq_none h)

/-- Settles O36: SH and SW are the stores of `State.storeHalf_spec` and `State.storeWord_spec`, at the address of
R120. -/
theorem halfAndWordStores : Obligations.HalfAndWordStores := by
  intro s rs1 rs2 imm
  rw [exec_sh, exec_sw, ← s.effAddr_eq]
  exact ⟨s.storeHalf_spec _ _, s.storeWord_spec _ _⟩

/-! ### SLTIU and the register shifts (R142, R162, R166, R167) -/

/-- D11: the sign-extended immediate as unsigned is the field's number modulo 2^32. -/
theorem toNat_imm12 (imm : BitVec 12) : ((imm12 imm).toNat : Int) = imm.toInt % 2 ^ 32 := by
  have hofInt : imm12 imm = BitVec.ofInt 32 imm.toInt := rfl
  rw [hofInt, BitVec.toNat_ofInt]
  omega

theorem boolWord_lessUnsigned_imm12 (a : Word) (imm : BitVec 12) :
    boolWord (lessUnsigned a (imm12 imm)) = if (a.toNat : Int) < imm.toInt % 2 ^ 32 then 1#32 else 0#32 := by
  simp only [boolWord_lessUnsigned, ← toNat_imm12, Nat.cast_lt]

theorem exec_sltiu (s : State) (rd rs1 : RegIdx) (imm : BitVec 12) :
    exec (.sltiu rd rs1 imm) s = .next (s.retire rd (boolWord (lessUnsigned (s.getReg rs1) (imm12 imm)))) := rfl

/-- Settles O38: SLTIU retires its comparison, whose bound is the exact arithmetic of R142. -/
theorem sltiuResult : Obligations.SltiuResult := by
  intro s rd rs1 imm
  rw [exec_sltiu, boolWord_lessUnsigned_imm12]
  exact s.retire_spec rd _

theorem shiftAmount_toNat (v : Word) : (shiftAmount v).toNat = v.toNat % 32 := by
  rw [shiftAmount, BitVec.extractLsb'_toNat, Nat.shiftRight_zero]

section
variable (s : State) (rd rs1 rs2 : RegIdx)

theorem exec_sll :
    exec (.sll rd rs1 rs2) s = .next (s.retire rd (shiftLeft (s.getReg rs1) (shiftAmount (s.getReg rs2)))) := rfl

theorem exec_srl :
    exec (.srl rd rs1 rs2) s =
      .next (s.retire rd (shiftRightLogical (s.getReg rs1) (shiftAmount (s.getReg rs2)))) := rfl

theorem exec_sra :
    exec (.sra rd rs1 rs2) s =
      .next (s.retire rd (shiftRightArith (s.getReg rs1) (shiftAmount (s.getReg rs2)))) := rfl

theorem exec_mulhsu :
    exec (.mulhsu rd rs1 rs2) s = .next (s.retire rd (mulHighMixed (s.getReg rs1) (s.getReg rs2))) := rfl

end

/-- Settles O44: the shifts of the immediate family, by the amount of D20. -/
theorem registerShifts : Obligations.RegisterShifts := by
  rintro s rd rs1 rs2 _ rfl
  rw [exec_sll, exec_srl, exec_sra, shiftLeft_eq, shiftRightLogical_eq, shiftRightArith_eq, shiftAmount_toNat]
  exact ⟨s.retire_spec rd _, s.retire_spec rd _, s.retire_spec rd _⟩

/-! ### Multiply and divide (R180 to R187) -/

theorem mulHighMixed_eq (a b : Word) : mulHighMixed a b = BitVec.ofInt 32 (a.toInt * b.toNat / 2 ^ 32) :=
  highWord_eq _

/-- R180: the low word does not depend on the operands' signs. -/
theorem ofInt_mul_toInt (a b : Word) : BitVec.ofInt 32 (a.toInt * b.toInt) = BitVec.ofNat 32 (a.toNat * b.toNat) := by
  rw [BitVec.ofInt_mul, BitVec.ofInt_toInt, BitVec.ofInt_toInt, BitVec.ofNat_mul, BitVec.ofNat_toNat,
    BitVec.ofNat_toNat, BitVec.setWidth_eq, BitVec.setWidth_eq]

/-- Settles O46: MULHSU's value is the high word of the mixed product, MUL's the low word of either. -/
theorem mulhsuAndUnsignedMulResults : Obligations.MulhsuAndUnsignedMulResults := by
  intro s rd rs1 rs2
  rw [exec_mulhsu, mulHighMixed_eq, exec_mul, ofInt_mul_toInt]
  exact ⟨s.retire_spec rd _, s.retire_spec rd _⟩

/-- The quotient toward zero, by magnitudes and signs. -/
theorem tdiv_eq_sign_mul (a b : Int) : a.tdiv b = a.sign * b.sign * (a.natAbs / b.natAbs : Nat) := by
  rw [← Int.sign_mul_natAbs (a.tdiv b), Int.sign_tdiv, Int.natAbs_tdiv]
  split
  case isTrue hlt => rw [Nat.div_eq_of_lt hlt, Int.zero_mul, Nat.cast_zero, Int.mul_zero]
  case isFalse => rfl

/-- The remainder with the dividend's sign, by magnitudes and sign. -/
theorem tmod_eq_sign_mul (a b : Int) : a.tmod b = a.sign * (a.natAbs % b.natAbs : Nat) := by
  rw [← Int.sign_mul_natAbs (a.tmod b), Int.sign_tmod, Int.natAbs_tmod]
  split
  case isTrue hdvd =>
    rw [Nat.mod_eq_zero_of_dvd (Int.natAbs_dvd_natAbs.2 hdvd), Int.zero_mul, Nat.cast_zero, Int.mul_zero]
  case isFalse => rfl

section
variable {a b : Word}

theorem divOverflows_iff : divOverflows a b = true ↔ a = 0x80000000#32 ∧ b = 0xFFFFFFFF#32 := by
  rw [divOverflows, Bool.and_eq_true, beq_iff_eq, beq_iff_eq]

/-- On overflow too: 2^31 truncates to 0x80000000. -/
theorem divSigned_of_ne_zero (hb : b ≠ 0#32) : divSigned a b = BitVec.ofInt 32 (a.toInt.tdiv b.toInt) := by
  rw [divSigned, if_neg hb]
  split
  case isTrue hover =>
    obtain ⟨rfl, rfl⟩ := divOverflows_iff.1 hover
    decide
  case isFalse => rfl

/-- On overflow too: the remainder is 0. -/
theorem remSigned_of_ne_zero (hb : b ≠ 0#32) : remSigned a b = BitVec.ofInt 32 (a.toInt.tmod b.toInt) := by
  rw [remSigned, if_neg hb, Int.tmod_def]
  split
  case isTrue hover =>
    obtain ⟨rfl, rfl⟩ := divOverflows_iff.1 hover
    decide
  case isFalse => rfl

theorem ne_zero_of_toInt (h : b.toInt ≠ 0) : b ≠ 0#32 := by
  rintro rfl
  exact h rfl

end

/-- Settles O48: the general values of DIV and REM hold on overflow too, where they are 0x80000000 and 0. -/
theorem signedDivision : Obligations.SignedDivision := by
  rintro s rd rs1 rs2 _ _ rfl rfl hb
  have hne := ne_zero_of_toInt hb
  rw [exec_div, exec_rem, divSigned_of_ne_zero hne, remSigned_of_ne_zero hne]
  refine ⟨?_, ?_, fun ha hminus => ?_⟩
  · rw [← tdiv_eq_sign_mul]
    exact s.retire_spec rd _
  · rw [← tmod_eq_sign_mul]
    exact s.retire_spec rd _
  · rw [ha, hminus]
    exact ⟨s.retire_spec rd _, s.retire_spec rd _⟩

/-- Quotient times divisor plus remainder, signed (R186): by zero the quotient is annihilated, else it is the identity
of the exact integers. -/
theorem divSigned_mul_add_remSigned (a b : Word) : divSigned a b * b + remSigned a b = a := by
  by_cases hb : b = 0#32
  · rw [remSigned_of_zero a (congrArg BitVec.toNat hb), hb, BitVec.mul_zero, BitVec.zero_add]
  · rw [divSigned_of_ne_zero hb, remSigned_of_ne_zero hb]
    calc BitVec.ofInt 32 (a.toInt.tdiv b.toInt) * b + BitVec.ofInt 32 (a.toInt.tmod b.toInt)
        = BitVec.ofInt 32 (a.toInt.tdiv b.toInt * b.toInt + a.toInt.tmod b.toInt) := by
          rw [BitVec.ofInt_add, BitVec.ofInt_mul, BitVec.ofInt_toInt]
      _ = a := by rw [Int.tdiv_mul_add_tmod, BitVec.ofInt_toInt]

/-- The same, unsigned. -/
theorem divUnsigned_mul_add_remUnsigned (a b : Word) : divUnsigned a b * b + remUnsigned a b = a := by
  by_cases hb : b.toNat = 0
  · have hzero : b = 0#32 := BitVec.eq_of_toNat_eq hb
    rw [remUnsigned_of_zero a hb, hzero, BitVec.mul_zero, BitVec.zero_add]
  · rw [divUnsigned_of_ne_zero a hb, remUnsigned_of_ne_zero a hb]
    calc BitVec.ofNat 32 (a.toNat / b.toNat) * b + BitVec.ofNat 32 (a.toNat % b.toNat)
        = BitVec.ofNat 32 (a.toNat / b.toNat * b.toNat + a.toNat % b.toNat) := by
          rw [BitVec.ofNat_add, BitVec.ofNat_mul, BitVec.ofNat_toNat, BitVec.setWidth_eq]
      _ = a := by rw [Nat.div_add_mod', BitVec.ofNat_toNat, BitVec.setWidth_eq]

/-- A value retired to a register other than x0 is read there. -/
theorem getReg_of_retire {s t : State} {rd : RegIdx} {v : Word}
    (h : Host.Outcome.next (φ := Fault) (ρ := Refusal) (s.retire rd v) = .next t) (hrd : rd ≠ 0) :
    t.getReg rd = v := by
  cases h
  rw [State.retire, State.advance, State.goto_getReg, State.getReg_setReg, if_neg hrd, if_pos rfl]

/-- Settles O50: the two retired values satisfy the identity of the words. -/
theorem divisionIdentity : Obligations.DivisionIdentity := by
  intro s t u rd rs1 rs2 hrd
  rw [exec_div, exec_rem, exec_divu, exec_remu]
  refine ⟨fun hdiv hrem => ?_, fun hdiv hrem => ?_⟩
  · rw [getReg_of_retire hdiv hrd, getReg_of_retire hrem hrd, divSigned_mul_add_remSigned]
  · rw [getReg_of_retire hdiv hrd, getReg_of_retire hrem hrd, divUnsigned_mul_add_remUnsigned]

end Sys2Proof.Machine
